-- ==== Sys2Proof/Word.lean ====
section
/-! DEFINITION. The word types of BCDU: the byte and the 4-bit nibble of R8, the byte sequence of R9, and the width of
the length ports (R6). -/

namespace Sys2Proof

/-- One byte of a packed-BCD sequence (R8, R9). -/
abbrev Byte := BitVec 8

/-- A 4-bit half of a byte, which holds one decimal digit when its value is at most 9 (R8, R42). -/
abbrev Nibble := BitVec 4

/-- A byte sequence: a finite list of bytes, the first one the most significant digit pair (R9, R41).
Equality is equality of length and of every byte (D24), which is equality of lists. -/
abbrev ByteSeq := List Byte

/-- `LW` of R6: the number of bits of `M` written in binary. -/
def lengthWidth (M : Nat) : Nat := Nat.log2 M + 1

end Sys2Proof
end

