-- ==== Sys2Proof/Syntax.lean ====
section
/-! DEFINITION. The nine operations with their operands (R57, R64), the five request formats (R56), the request
record that carries an operation to the block (R23), the response record that answers it (R24), and the aliases of
R65. -/

namespace Sys2Proof

/-- One constructor per row of spec/opcode_table.json, operands in the order of R64. Operands are the unsigned
values of whole ports (R58): naturals for the `W`-bit and `LW`-bit ports, a byte list for the pair of a sequence
port and its length port. What a port of the instance can carry is WellFormed.lean's business. -/
inductive Instr where
  /-- `PACK t, o` (R76) -/
  | pack (tens ones : Nibble)
  /-- `UNPACK b` (R77) -/
  | unpack (b : Byte)
  /-- `VALIDATE b` (R78) -/
  | validate (b : Byte)
  /-- `ENCODE v, n` (R91) -/
  | encode (v n : Nat)
  /-- `ENCMIN v` (R96) -/
  | encmin (v : Nat)
  /-- `DECODE s` (R106) -/
  | decode (s : ByteSeq)
  /-- `RESIZE s, n` (R117) -/
  | resize (s : ByteSeq) (n : Nat)
  /-- `FROMBYTES s` (R119) -/
  | frombytes (s : ByteSeq)
  /-- `FROMBYTESN s, n` (R121) -/
  | frombytesn (s : ByteSeq) (n : Nat)
deriving DecidableEq, Repr

/-- The nine values that `op` can name (R57), without operands. -/
inductive Op where
  | pack | unpack | validate | encode | encmin | decode | resize | frombytes | frombytesn
deriving DecidableEq, Repr

/-- The five request formats of R56, named by the operand ports they read. -/
inductive Format where
  | dp2 | dp1 | int | seq | seqn
deriving DecidableEq, Repr

/-- The format column of R57. -/
def Op.format : Op → Format
  | .pack => .dp2
  | .unpack => .dp1
  | .validate => .dp1
  | .encode => .int
  | .encmin => .int
  | .decode => .seq
  | .resize => .seqn
  | .frombytes => .seq
  | .frombytesn => .seqn

/-- Which operations read `tens_in` and `ones_in` (R23). -/
def Op.readsDigits (o : Op) : Bool := o.format == .dp2

/-- Which operations read `byte_in` (R23). -/
def Op.readsByte (o : Op) : Bool := o.format == .dp1

/-- Which operations read `bin_in` (R23). -/
def Op.readsBin (o : Op) : Bool := o.format == .int

/-- Which operations read `seq_in` and `len_in` (R23; condition 2 of R63). -/
def Op.readsSeq (o : Op) : Bool := o.format == .seq || o.format == .seqn

/-- Which operations read `n_in` (R23; condition 3 of R63). -/
def Op.readsCount (o : Op) : Bool := o == .encode || o.format == .seqn

/-- The operation an instruction is an instance of. -/
def Instr.op : Instr → Op
  | .pack _ _ => .pack
  | .unpack _ => .unpack
  | .validate _ => .validate
  | .encode _ _ => .encode
  | .encmin _ => .encmin
  | .decode _ => .decode
  | .resize _ _ => .resize
  | .frombytes _ => .frombytes
  | .frombytesn _ _ => .frombytesn

/-- The request record of R23, for an instance with integer width `W` and sequence capacity `M`. It is the
encoded form of an operation (R55): there is no instruction word in a memory. -/
structure Request (W M : Nat) where
  op : BitVec 4
  tensIn : Nibble
  onesIn : Nibble
  byteIn : Byte
  binIn : BitVec W
  nIn : BitVec (lengthWidth M)
  seqIn : BitVec (8 * M)
  lenIn : BitVec (lengthWidth M)
deriving DecidableEq, Repr

/-- The alias `unpack_value(b)` of R65, which stands for `DECODE [b]` when `K(W) >= 1`. -/
def Instr.unpackValue (b : Byte) : Instr := .decode [b]

/-- The alias `PAIRENC dp` of R65, which stands for `ENCODE dp, 1`. -/
def Instr.pairEnc (dp : Nat) : Instr := .encode dp 1

namespace Machine

/-- The response record of R24, for an instance with integer width `W` and sequence capacity `M`. -/
structure Response (W M : Nat) where
  status : BitVec 2
  byteOut : Byte
  tensOut : Nibble
  onesOut : Nibble
  validOut : BitVec 1
  seqOut : BitVec (8 * M)
  lenOut : BitVec (lengthWidth M)
  binOut : BitVec W
  lossy : BitVec 1
  errValue : BitVec W
  errMax : BitVec W
  errIndex : BitVec (lengthWidth M)
deriving DecidableEq, Repr

end Machine

end Sys2Proof
end

