-- ==== Sys2Proof/Config.lean ====
section
/-! DEFINITION. The static parameters of an instance (R5), the one instance that the state after reset is given for, and
the one free value: what the block presents for a malformed request (R157). No operation reads it. -/

namespace Sys2Proof

/-- The three static parameters of R5. They are fixed when an instance is built; `hW` and `hM` are the
constraints the rule puts on them, so that an instance breaking them cannot be written down. -/
structure Params where
  /-- width in bits of the integer ports -/
  W : Nat
  /-- capacity in bytes of the sequence ports -/
  M : Nat
  /-- response latency, in clock edges, of the signal-level wrapper -/
  LAT : Nat
  hW : 1 ≤ W := by decide
  hM : 1 ≤ M := by decide
deriving DecidableEq, Repr

/-- The instance whose state after reset is `State.reset`: `W = 16`, `M = 4`, the configuration of
95_test_vectors.md section 4, with `LAT = 0`. DESIGN CHOICE, notes/assumptions/1.md: every definition and
every statement takes the parameters from the state, so only `State.reset` and the host's two helpers rest on
these three numbers. -/
def Config.build : Params := { W := 16, M := 4, LAT := 0 }

/-- FREE VALUE (notes/assumptions/7.md): what the block presents for a malformed request, `none` being `rsp_valid = 0`.
R157 leaves both the response and whether there is one unspecified (U1, U2). It has no body, so nothing can be proved
of it; it may differ with the request and, by the counter `n` that the step advances, from one edge to another. -/
opaque Config.malformedSlot (W M : Nat) (q : Request W M) (n : Nat) : Option (Machine.Response W M)

end Sys2Proof
end

