-- ==== Sys2Proof/WellFormed.lean ====
section
/-! DEFINITION. Which instructions an instance's request ports can carry (R63, R58). -/

namespace Sys2Proof

/-- The integer operand fits the `W`-bit port `bin_in` (R23). -/
def fitsInteger (W v : Nat) : Bool := decide (v < 2 ^ W)

/-- Condition 3 of R63 on a target byte count. -/
def fitsCount (M n : Nat) : Bool := decide (n ≤ M)

/-- Condition 2 of R63 on the length of an input sequence. -/
def fitsSeq (M : Nat) (s : ByteSeq) : Bool := decide (s.length ≤ M)

/-- An instruction is well formed for an instance of width `W` and capacity `M` when every operand it reads has a
value its port can carry and R63 admits. Condition 1 of R63 holds of every instruction, since the constructors are
the nine codes. -/
def Instr.wellFormed (W M : Nat) : Instr → Bool
  | .pack _ _ => true
  | .unpack _ => true
  | .validate _ => true
  | .encode v n => fitsInteger W v && fitsCount M n
  | .encmin v => fitsInteger W v
  | .decode s => fitsSeq M s
  | .resize s n => fitsSeq M s && fitsCount M n
  | .frombytes s => fitsSeq M s
  | .frombytesn s n => fitsSeq M s && fitsCount M n

end Sys2Proof
end

