-- ==== Sys2Proof/Decode.lean ====
section
/-! DEFINITION. The op code table (R57), how a byte sequence lies on a sequence port (R25), the decoder from request
records to instructions, total and rejecting by name (R60, R63), and the encoder from instructions to request
records. -/

namespace Sys2Proof

/-- One row of the op code table: an operation is selected when `op &&& mask = code`. -/
structure OpRow where
  op : Op
  code : BitVec 4
  mask : BitVec 4
deriving DecidableEq, Repr

/-- The op code table of R57, with the `match` and `mask` columns of spec/opcode_table.json. The seven codes it does
not list are the reserved ones of R60. -/
def opTable : List OpRow :=
  [ ⟨.pack,       0x0, 0xF⟩,
    ⟨.unpack,     0x1, 0xF⟩,
    ⟨.validate,   0x2, 0xF⟩,
    ⟨.encode,     0x4, 0xF⟩,
    ⟨.encmin,     0x5, 0xF⟩,
    ⟨.decode,     0x8, 0xF⟩,
    ⟨.resize,     0xC, 0xF⟩,
    ⟨.frombytes,  0xD, 0xF⟩,
    ⟨.frombytesn, 0xE, 0xF⟩ ]

/-- The operation a value of the `op` port selects, or none for a reserved code (R57, R60). -/
def decodeOp (c : BitVec 4) : Option Op :=
  (opTable.find? fun row => c &&& row.mask == row.code).map OpRow.op

/-- The value of the `op` port that selects an operation (the `op` column of R57). -/
def encodeOp : Op → BitVec 4
  | .pack => 0x0
  | .unpack => 0x1
  | .validate => 0x2
  | .encode => 0x4
  | .encmin => 0x5
  | .decode => 0x8
  | .resize => 0xC
  | .frombytes => 0xD
  | .frombytesn => 0xE

/-- `inseq` of R25: the `L` bytes that lie right-justified on a sequence port, first byte first. Byte `i` is bits
`8 * (L - 1 - i) + 7 .. 8 * (L - 1 - i)`; the bits above `8 * L` are not looked at. -/
def seqOfPort {w : Nat} (p : BitVec w) (L : Nat) : ByteSeq :=
  (List.range L).map fun i => p.extractLsb' (8 * (L - 1 - i)) 8

/-- The natural a sequence stands for on a sequence port, `sum over i of s[i] * 256^(len(s) - 1 - i)` (R25). -/
def seqNat (s : ByteSeq) : Nat := s.foldl (fun acc b => acc * 256 + b.toNat) 0

/-- The value of a sequence port that carries `s` right-justified, the bits above `8 * len(s)` zero (R25). -/
def seqToPort (M : Nat) (s : ByteSeq) : BitVec (8 * M) := BitVec.ofNat (8 * M) (seqNat s)

/-- Why a request record is not a well-formed request (R63). A rejection is the rule's `refuse`: the request selects no
operation, and `exec` runs for it on nothing. -/
inductive DecodeError where
  /-- condition 1: the code is none of the nine (R60, U1) -/
  | reservedOp (code : BitVec 4)
  /-- condition 2: `len_in > M` on an operation that reads it (U2) -/
  | lengthAboveCapacity (len : Nat)
  /-- condition 3: `n_in > M` on an operation that reads it (U2) -/
  | countAboveCapacity (n : Nat)
deriving DecidableEq, Repr

/-- Read the input sequence, or reject the request by condition 2 of R63. -/
def withSeq {W M : Nat} (r : Request W M) (k : ByteSeq → Except DecodeError Instr) : Except DecodeError Instr :=
  if r.lenIn.toNat ≤ M then k (seqOfPort r.seqIn r.lenIn.toNat)
  else .error (.lengthAboveCapacity r.lenIn.toNat)

/-- Read the target byte count, or reject the request by condition 3 of R63. -/
def withCount {W M : Nat} (r : Request W M) (k : Nat → Except DecodeError Instr) : Except DecodeError Instr :=
  if r.nIn.toNat ≤ M then k r.nIn.toNat else .error (.countAboveCapacity r.nIn.toNat)

/-- The decoder: dispatch on `op` (R57, R11), then read the ports of the operation's format (R56). Fields outside the
format are not looked at (R27). -/
def decode {W M : Nat} (r : Request W M) : Except DecodeError Instr :=
  match decodeOp r.op with
  | none => .error (.reservedOp r.op)
  | some .pack => .ok (.pack r.tensIn r.onesIn)
  | some .unpack => .ok (.unpack r.byteIn)
  | some .validate => .ok (.validate r.byteIn)
  | some .encode => withCount r fun n => .ok (.encode r.binIn.toNat n)
  | some .encmin => .ok (.encmin r.binIn.toNat)
  | some .decode => withSeq r fun s => .ok (.decode s)
  | some .resize => withSeq r fun s => withCount r fun n => .ok (.resize s n)
  | some .frombytes => withSeq r fun s => .ok (.frombytes s)
  | some .frombytesn => withSeq r fun s => withCount r fun n => .ok (.frombytesn s n)

/-- A request record with every port at 0, the ground an encoder writes on. -/
def Request.zero (W M : Nat) : Request W M :=
  { op := 0, tensIn := 0, onesIn := 0, byteIn := 0, binIn := 0, nIn := 0, seqIn := 0, lenIn := 0 }

/-- The encoder: the request record of an instruction, by R57 and R64. Ports the operation does not read carry 0;
that is the encoder's choice, since the block ignores them (R27). -/
def encode (W M : Nat) (i : Instr) : Request W M :=
  let ground : Request W M := { Request.zero W M with op := encodeOp i.op }
  match i with
  | .pack t o => { ground with tensIn := t, onesIn := o }
  | .unpack b => { ground with byteIn := b }
  | .validate b => { ground with byteIn := b }
  | .encode v n => { ground with binIn := BitVec.ofNat W v, nIn := BitVec.ofNat _ n }
  | .encmin v => { ground with binIn := BitVec.ofNat W v }
  | .decode s => { ground with seqIn := seqToPort M s, lenIn := BitVec.ofNat _ s.length }
  | .resize s n =>
    { ground with seqIn := seqToPort M s, lenIn := BitVec.ofNat _ s.length, nIn := BitVec.ofNat _ n }
  | .frombytes s => { ground with seqIn := seqToPort M s, lenIn := BitVec.ofNat _ s.length }
  | .frombytesn s n =>
    { ground with seqIn := seqToPort M s, lenIn := BitVec.ofNat _ s.length, nIn := BitVec.ofNat _ n }

/-- The request whose `op` port carries the low bits of a table word and whose operand ports carry 0. The table gives
a row only the four bits of `op` (its `mask` is `0xF`); the other bits of the byte are no port of this hardware.
DESIGN CHOICE, notes/assumptions/6.md. -/
def requestOfTableWord (W M nbits w : Nat) : Request W M :=
  { Request.zero W M with op := BitVec.ofNat 4 (w % 2 ^ nbits) }

/-- The instruction that the decoder reads from an op code table word, at the instance of `Config.build`. -/
def decodeTableWord (nbits w : Nat) : Option Instr :=
  (decode (requestOfTableWord Config.build.W Config.build.M nbits w)).toOption

end Sys2Proof
end

