-- ==== Sys2Proof/Machine/State.lean ====
section
/-! DEFINITION. The ports of the signal-level wrapper (R29), the state of one block (R28, R30), the reasons an
instruction can stop, and the state after reset. BCDU has no architectural state (R20, R21, R22) and no
memory (R40): what stands here is the instance's parameters, the signals on its ports and the pending responses. -/

namespace Sys2Proof.Machine

/-- The input signals the block samples on one rising edge of `clk`: `rst`, `req_valid` and the request fields
(R29). -/
structure Inputs (W M : Nat) where
  rst : Bool
  reqValid : Bool
  req : Request W M
deriving DecidableEq, Repr

/-- A requester that drives nothing: `rst = 0` and `req_valid = 0`, so that the request fields are ignored (R60,
R157). -/
def Inputs.idle (W M : Nat) : Inputs W M := { rst := false, reqValid := false, req := Request.zero W M }

/-- The state of one block between two rising edges of `clk`. One step of the machine is one rising edge. -/
structure State where
  /-- the parameters the instance was built with (R5); no step changes them -/
  params : Params
  /-- the input signals as the requester drives them at the coming edge (R23, R29) -/
  inputs : Inputs params.W params.M
  /-- what the requester drives at the edges after that, earliest first; past its end the requester is idle
  (notes/assumptions/4.md) -/
  later : List (Inputs params.W params.M)
  /-- the pending responses of R28, oldest first, one slot per edge; `none` is an edge that accepted no request -/
  pending : List (Option (Response params.W params.M))
  /-- the response signals: `some r` is `rsp_valid = 1` with the response fields at `r`; `none` is `rsp_valid = 0`, and
  the response fields then have no value that this state gives (R30, U6, D27; notes/assumptions/3.md) -/
  rsp : Option (Response params.W params.M)
  /-- the MODEL's own counter: how many malformed requests were accepted, so that each one gets a free value of its own
  (Config.malformedSlot, notes/assumptions/7.md) -/
  free : Nat
deriving DecidableEq, Repr

/-- The signal `rsp_valid` (R29). -/
def State.rspValid (s : State) : Bool := s.rsp.isSome

/-- What stops the machine with a fault: nothing. An outcome of `exec` is a response or a refusal (R11); the two
failure kinds of R130 are values of a response (R137), there is no trap, no memory and no interrupt, and every
operation terminates (R160). So the type has no constructor, and no step can fault. -/
inductive Fault where
deriving DecidableEq, Repr

/-- Why `exec` gives an instruction no response (R63). Each is safe: the spec gives it no response, no status and no
meaning. No step refuses: a decoded instruction is well formed, and a request the decoder rejects leaves its slot
unspecified and the block goes on (R157). -/
inductive Refusal where
  /-- An instruction that has no meaning yet. Raised by `exec`'s arms only; none is left. Safe. -/
  | notModelled (mnemonic : String)
  /-- `len_in > M` on an operation that reads `len_in` (condition 2 of R63, U2). Raised by `exec` only, for an
  instruction whose sequence is longer than `M`; no step reaches it. Safe. -/
  | lengthAboveCapacity (len : Nat)
  /-- `n_in > M` on an operation that reads `n_in` (condition 3 of R63, U2). Raised by `exec` only, for an
  instruction whose byte count exceeds `M`; no step reaches it. Safe. -/
  | countAboveCapacity (n : Nat)
  /-- The integer operand of an instruction is no value of the `W`-bit port `bin_in`, so that no request carries it
  (R23). Raised by `exec` only; no step reaches it, since a decoded operand comes from the port. Safe. -/
  | integerAbovePort (v : Nat)
deriving DecidableEq, Repr

/-- The state after reset (R30, R150): nothing is pending, `rsp_valid = 0`. The parameters are those of
`Config.build` (DESIGN CHOICE, notes/assumptions/1.md) and the requester drives nothing (DESIGN CHOICE,
notes/assumptions/4.md); `free` starts at 0 (DESIGN CHOICE, notes/assumptions/7.md). -/
def State.reset : State :=
  { params := Config.build
    inputs := Inputs.idle Config.build.W Config.build.M
    later := []
    pending := List.replicate Config.build.LAT none
    rsp := none
    free := 0 }

end Sys2Proof.Machine
end

