-- ==== Sys2Proof/Machine/Numbers.lean ====
section
/-! DEFINITION. The constants and functions on unbounded naturals that the rules use (R6, R7, R90, R95). -/

namespace Sys2Proof.Machine

/-- `maxval(n) = 10^(2n) - 1` of R6, exact (R90). -/
def maxval (n : Nat) : Nat := 10 ^ (2 * n) - 1

/-- The largest `k` from 0 to the second argument with `10^(2k) <= bound`. -/
def largestFit (bound : Nat) : Nat → Nat
  | 0 => 0
  | k + 1 => if 10 ^ (2 * (k + 1)) ≤ bound then k + 1 else largestFit bound k

/-- `K(W)` of R6 (D13): the largest natural `k` with `10^(2k) <= 2^W`. No `k` above `W` satisfies that, so the
search starts at `W`. -/
def bytesThatFit (W : Nat) : Nat := largestFit (2 ^ W) W

/-- Count decimal digits, stripping one a turn; the first argument bounds the turns. -/
def countDigits : Nat → Nat → Nat
  | 0, _ => 1
  | fuel + 1, v => if v < 10 then 1 else 1 + countDigits fuel (v / 10)

/-- `ndigits(v)` of R7, with `ndigits(0) = 1` (D11). A number has at most as many digits as its value, so `v` turns
are enough. -/
def ndigits (v : Nat) : Nat := countDigits v v

/-- `ceil(a / b)` as R7 writes it. -/
def ceilDiv (a b : Nat) : Nat := (a + b - 1) / b

/-- `minlen(v) = max(1, ceil(ndigits(v) / 2))` of R95. -/
def minlen (v : Nat) : Nat := max 1 (ceilDiv (ndigits v) 2)

/-- `NMIN(W) = ceil(ndigits(2^W - 1) / 2)` of R6. -/
def nmin (W : Nat) : Nat := ceilDiv (ndigits (2 ^ W - 1)) 2

end Sys2Proof.Machine
end

