-- ==== Sys2Proof/Machine/Operands.lean ====
section
/-! DEFINITION. The operand forms of the nine operations: the checks by which an operand the ports cannot carry is
refused by name (R58, R63), the nibbles of a byte (R8, R75), the digit pair of a byte (R79, R80), and the parts of a
byte sequence (R9, R116). -/

namespace Sys2Proof.Machine

/-- Condition 3 of R63: go on when the byte count is at most `M`. -/
def requireCount (n : Nat) (s : State) (k : Host.Outcome State Fault Refusal) : Host.Outcome State Fault Refusal :=
  if n ≤ s.params.M then k else .refused (.countAboveCapacity n)

/-- Condition 2 of R63: go on when the sequence has at most `M` bytes. -/
def requireSeq (b : ByteSeq) (s : State) (k : Host.Outcome State Fault Refusal) : Host.Outcome State Fault Refusal :=
  if b.length ≤ s.params.M then k else .refused (.lengthAboveCapacity b.length)

/-- Go on when the integer is a value of the `W`-bit port `bin_in` (R23, R58). -/
def requireInteger (v : Nat) (s : State) (k : Host.Outcome State Fault Refusal) :
    Host.Outcome State Fault Refusal :=
  if v < 2 ^ s.params.W then k else .refused (.integerAbovePort v)

/-- The high nibble of a byte, the tens digit (R42, R75). -/
def hi (b : Byte) : Nibble := b.extractLsb' 4 4

/-- The low nibble of a byte, the ones digit (R42, R75). -/
def lo (b : Byte) : Nibble := b.extractLsb' 0 4

/-- `(t << 4) | o`, the byte of two nibbles (R76). -/
def packNibbles (t o : Nibble) : Byte := (t.setWidth 8 <<< 4) ||| o.setWidth 8

/-- A byte is valid packed BCD when both nibbles are at most 9 (R75). -/
def validByte (b : Byte) : Bool := decide ((hi b).toNat ≤ 9) && decide ((lo b).toNat ≤ 9)

/-- `unpack_value(b)` of R79; none is the rule's `invalid`. -/
def unpackValue (b : Byte) : Option Nat :=
  if validByte b then some (10 * (hi b).toNat + (lo b).toNat) else none

/-- `pair_byte(dp)` of R80, for `dp` in `[0, 99]`. -/
def pairByte (dp : Nat) : Byte := packNibbles (BitVec.ofNat 4 (dp / 10)) (BitVec.ofNat 4 (dp % 10))

/-- `zeros(k)` of R9. -/
def zeros (k : Nat) : ByteSeq := List.replicate k 0

/-- `last(s, k)` of R9: the final `k` bytes of `s`, for `k <= len(s)`. -/
def last (s : ByteSeq) (k : Nat) : ByteSeq := s.drop (s.length - k)

/-- `truncate_or_pad(s, n)` of R116. -/
def truncateOrPad (s : ByteSeq) (n : Nat) : ByteSeq :=
  if s.length = n then s
  else if s.length > n then last s n
  else zeros (n - s.length) ++ s

/-- The least index of an invalid byte, if any: the validation loop of R119 and R121 in index order. -/
def firstInvalid (s : ByteSeq) : Option Nat := s.findIdx? fun b => !validByte b

end Sys2Proof.Machine
end

