-- ==== Sys2Proof/Machine/Flags.lean ====
section
/-! DEFINITION. The response record with every field 0 (R26) and the three response fields that play the part of flags (R22): `status` (R131), `lossy` (R106) and
`valid_out` (R78). None is kept between operations. -/

namespace Sys2Proof.Machine

/-- The record every response starts from: a field that no rule writes is 0 (R26). -/
def Response.zero (W M : Nat) : Response W M :=
  { status := 0, byteOut := 0, tensOut := 0, onesOut := 0, validOut := 0, seqOut := 0, lenOut := 0, binOut := 0,
    lossy := 0, errValue := 0, errMax := 0, errIndex := 0 }

/-- The three statuses (R131); the code 3 is no status of this type (U9). -/
inductive Status where
  | ok | overflow | invalidFormat
deriving DecidableEq, Repr

/-- The code a status has on the port `status` (R131, D6). -/
def Status.code : Status → BitVec 2
  | .ok => 0
  | .overflow => 1
  | .invalidFormat => 2

/-- `lossy` of R106: 1 iff a sequence of this length is longer than the result width can hold (D14). -/
def lossyFlag (W len : Nat) : BitVec 1 := if len > bytesThatFit W then 1 else 0

/-- `valid_out` of R78: 1 iff both nibbles are at most 9. -/
def validFlag (b : Byte) : BitVec 1 := if validByte b then 1 else 0

end Sys2Proof.Machine
end

