-- ==== Sys2Proof/Machine/Ops.lean ====
section
/-! DEFINITION. The named operations over the state: giving a response, the failure of an operation as one shared
operation (R132, R133, R135, R137), and what the signal-level wrapper does on a clock edge (R150, R157). A failure
has no return to model (R138). -/

namespace Sys2Proof.Machine

/-- The response of an accepted request joins the pending responses, behind those of earlier requests (R28, R157). -/
def State.accept (s : State) (r : Response s.params.W s.params.M) : State :=
  { s with pending := s.pending ++ [some r] }

/-- An edge that accepts no request leaves an empty slot among the pending responses (R157). -/
def State.acceptNothing (s : State) : State := { s with pending := s.pending ++ [none] }

/-- An edge that accepts a malformed request leaves one slot whose content is unspecified, a free value, and touches no
other slot (R157, U1, U2). -/
def State.acceptMalformed (s : State) : State :=
  { s with
    pending := s.pending ++ [Config.malformedSlot s.params.W s.params.M s.inputs.req s.free]
    free := s.free + 1 }

/-- End an operation with a response. -/
def reply (s : State) (r : Response s.params.W s.params.M) : Host.Outcome State Fault Refusal := .next (s.accept r)

/-- `outseq <- b; rsp.status <- OK` (R10, R25): end an operation with an output sequence. -/
def replySeq (s : State) (b : ByteSeq) : Host.Outcome State Fault Refusal :=
  reply s
    { Response.zero s.params.W s.params.M with
      status := Status.ok.code
      seqOut := seqToPort s.params.M b
      lenOut := BitVec.ofNat _ b.length }

/-- The two failure kinds with their context (R130, R132, R133). -/
inductive Failure where
  /-- `Overflow(v, max)` -/
  | overflow (v max : Nat)
  /-- `InvalidFormat(i)` -/
  | invalidFormat (i : Nat)
deriving DecidableEq, Repr

/-- `raise` of R10: end an operation with a failure. It is the one place where a failure is taken: the response carries
the status and the error fields and nothing else (R132, R133, R135), no state is saved and control goes nowhere
(R137). -/
def raiseFailure (f : Failure) (s : State) : Host.Outcome State Fault Refusal :=
  match f with
  | .overflow v max =>
    reply s
      { Response.zero s.params.W s.params.M with
        status := Status.overflow.code
        errValue := BitVec.ofNat _ v
        errMax := BitVec.ofNat _ max }
  | .invalidFormat i =>
    reply s
      { Response.zero s.params.W s.params.M with
        status := Status.invalidFormat.code
        errIndex := BitVec.ofNat _ i }

/-- The requester's signals move on to the next edge; past the last one it is idle (notes/assumptions/4.md). -/
def State.nextInputs (s : State) : State :=
  match s.later with
  | [] => { s with inputs := Inputs.idle s.params.W s.params.M }
  | i :: rest => { s with inputs := i, later := rest }

/-- The oldest slot of the pending responses goes to the response signals (R157). An empty line, which no edge
leaves behind, presents nothing. -/
def State.present (s : State) : State :=
  { s with rsp := s.pending.headD none, pending := s.pending.tail }

/-- What a rising edge with `rst = 0` does after the accepting: the response accepted `LAT` edges ago is presented
(R157), and the requester moves on. -/
def State.finishEdge (s : State) : State := s.present.nextInputs

/-- What a rising edge with `rst = 1` does (R150): the request is ignored, every pending response is discarded,
`rsp_valid` is 0. The slots stay, all empty, so that the next response comes `LAT` edges after its request. -/
def State.resetEdge (s : State) : State :=
  { s with pending := List.replicate s.params.LAT none, rsp := none }.nextInputs

/-- The instruction on the request ports, or why there is none. There is no fetch from a memory (R48): the request at
the coming edge is the instruction. -/
def State.fetch (s : State) : Except DecodeError Instr := decode s.inputs.req

/-- The state with a valid request on its ports at the coming edge. -/
def State.withRequest (s : State) (r : Request s.params.W s.params.M) : State :=
  { s with inputs := { rst := false, reqValid := true, req := r } }

end Sys2Proof.Machine
end

