-- ==== Sys2Proof/Machine/Decoder.lean ====
section
/-! DEFINITION. The Integer Decoder: DECODE (42_decoder.md). -/

namespace Sys2Proof.Machine

/-- The fold of R106 over the consumed bytes, in stored order: `i` is the index, in the whole sequence, of the first
byte of the list, and `acc` the accumulator. The first invalid byte ends it with its index (R136). -/
def foldPairs (i acc : Nat) : ByteSeq → Except Nat Nat
  | [] => .ok acc
  | b :: rest =>
    match unpackValue b with
    | none => .error i
    | some d => foldPairs (i + 1) (acc * 100 + d) rest

/-- The number of bytes `DECODE` consumes from a sequence of this length (R106). -/
def consumed (W len : Nat) : Nat := min len (bytesThatFit W)

/-- `DECODE` (R106): only the trailing bytes that fit are consumed and validated (R107, D15); the accumulator starts
at 0 (D16). -/
def execDecode (b : ByteSeq) (s : State) : Host.Outcome State Fault Refusal :=
  requireSeq b s <|
    match foldPairs (b.length - consumed s.params.W b.length) 0 (last b (consumed s.params.W b.length)) with
    | .error i => raiseFailure (.invalidFormat i) s
    | .ok acc =>
      reply s
        { Response.zero s.params.W s.params.M with
          status := Status.ok.code
          binOut := BitVec.ofNat _ acc
          lossy := lossyFlag s.params.W b.length }

end Sys2Proof.Machine
end

