-- ==== Sys2Proof/Machine/DigitPair.lean ====
section
/-! DEFINITION. The Digit-Pair Codec: PACK, UNPACK, VALIDATE (40_digit_pair.md). None of the three can fail. -/

namespace Sys2Proof.Machine

/-- `PACK` (R76). It does not validate: digits above 9 give the same formula (U3, D19). -/
def execPack (t o : Nibble) (s : State) : Host.Outcome State Fault Refusal :=
  reply s
    { Response.zero s.params.W s.params.M with
      status := Status.ok.code
      byteOut := packNibbles t o }

/-- `UNPACK` (R77). It does not validate. -/
def execUnpack (b : Byte) (s : State) : Host.Outcome State Fault Refusal :=
  reply s
    { Response.zero s.params.W s.params.M with
      status := Status.ok.code
      tensOut := hi b
      onesOut := lo b }

/-- `VALIDATE` (R78). An invalid byte is an answer of 0, not a failure. -/
def execValidate (b : Byte) (s : State) : Host.Outcome State Fault Refusal :=
  reply s
    { Response.zero s.params.W s.params.M with
      status := Status.ok.code
      validOut := validFlag b }

end Sys2Proof.Machine
end

