-- ==== Sys2Proof/Machine/Encoder.lean ====
section
/-! DEFINITION. The Integer Encoder: ENCODE and ENCMIN (41_encoder.md). -/

namespace Sys2Proof.Machine

/-- The loop of R91, least significant digit pair first: while `x != 0`, push `pair_byte(x % 100)` and divide by 100.
The test stands before the body (C2). The first argument bounds the turns. -/
def pushPairs : Nat → Nat → ByteSeq
  | 0, _ => []
  | fuel + 1, x => if x = 0 then [] else pairByte (x % 100) :: pushPairs fuel (x / 100)

/-- The sequence of R91 for a value that passed the bound check: run the loop, pad with zero bytes to length `n`,
reverse. The loop runs fewer than `v + 1` times (R93). -/
def encodeSeq (v n : Nat) : ByteSeq :=
  let acc := pushPairs v v
  (acc ++ zeros (n - acc.length)).reverse

/-- `ENCODE` (R91): the bound check comes first, on the exact `10^(2n) - 1` (R90). -/
def execEncode (v n : Nat) (s : State) : Host.Outcome State Fault Refusal :=
  requireInteger v s <| requireCount n s <|
    if v > maxval n then raiseFailure (.overflow v (maxval n)) s
    else replySeq s (encodeSeq v n)

/-- `ENCMIN` (R96): fails only on the capacity of the port (D12), and otherwise is `ENCODE` at the minimal byte
count. -/
def execEncmin (v : Nat) (s : State) : Host.Outcome State Fault Refusal :=
  requireInteger v s <|
    if v > maxval s.params.M then raiseFailure (.overflow v (maxval s.params.M)) s
    else replySeq s (encodeSeq v (minlen v))

end Sys2Proof.Machine
end

