-- ==== Sys2Proof/Machine/Sequence.lean ====
section
/-! DEFINITION. The sequence operations: RESIZE, FROMBYTES, FROMBYTESN (43_sequence_ops.md). -/

namespace Sys2Proof.Machine

/-- `RESIZE` (R117): truncate or pad, silently, and without validating (D17, U4). -/
def execResize (b : ByteSeq) (n : Nat) (s : State) : Host.Outcome State Fault Refusal :=
  requireSeq b s <| requireCount n s <| replySeq s (truncateOrPad b n)

/-- `FROMBYTES` (R119): validate every byte, the first invalid one fails the operation, then copy verbatim. -/
def execFrombytes (b : ByteSeq) (s : State) : Host.Outcome State Fault Refusal :=
  requireSeq b s <|
    match firstInvalid b with
    | some i => raiseFailure (.invalidFormat i) s
    | none => replySeq s b

/-- `FROMBYTESN` (R121): validate every input byte, the ones truncation would drop too (R122, D18), then truncate or
pad. -/
def execFrombytesn (b : ByteSeq) (n : Nat) (s : State) : Host.Outcome State Fault Refusal :=
  requireSeq b s <| requireCount n s <|
    match firstInvalid b with
    | some i => raiseFailure (.invalidFormat i) s
    | none => replySeq s (truncateOrPad b n)

end Sys2Proof.Machine
end

