-- ==== Sys2Proof/Machine/Dispatch.lean ====
section
/-! DEFINITION. The dispatch of R11 and R57: one operation rule per operation. -/

namespace Sys2Proof.Machine

def exec (i : Instr) (s : State) : Host.Outcome State Fault Refusal :=
  match i with
  | .pack t o => Sys2Proof.Machine.execPack t o s
  | .unpack b => Sys2Proof.Machine.execUnpack b s
  | .validate b => Sys2Proof.Machine.execValidate b s
  | .encode v n => Sys2Proof.Machine.execEncode v n s
  | .encmin v => Sys2Proof.Machine.execEncmin v s
  | .decode b => Sys2Proof.Machine.execDecode b s
  | .resize b n => Sys2Proof.Machine.execResize b n s
  | .frombytes b => Sys2Proof.Machine.execFrombytes b s
  | .frombytesn b n => Sys2Proof.Machine.execFrombytesn b n s

end Sys2Proof.Machine
end

