-- ==== Sys2Proof/Machine/Step.lean ====
section
/-! DEFINITION. One step of the machine: one rising edge of `clk` (R29, R150, R157). -/

namespace Sys2Proof.Machine

/-- One rising edge. With `rst = 1` nothing is accepted and everything pending is dropped (R150). With `rst = 0` and
`req_valid = 1` the request on the ports is accepted: a well-formed one is executed, and one that the decoder rejects
(R63) leaves its own slot unspecified and disturbs no other request's response (R157). With `req_valid = 0` nothing is
accepted and the request fields are ignored (R157). Then the response accepted `LAT` edges earlier is presented. -/
def step (s : State) : Host.Outcome State Fault Refusal :=
  if s.inputs.rst then .next s.resetEdge
  else if s.inputs.reqValid then
    match s.fetch with
    | .error _ => .next s.acceptMalformed.finishEdge
    | .ok i =>
      match exec i s with
      | .next t => .next t.finishEdge
      | .fault f => .fault f
      | .refused r => .refused r
  else .next s.acceptNothing.finishEdge

/-- The state with the request of an op code table word on its ports, `rst = 0` and `req_valid = 1`: the very next
step accepts and runs that request. This stands for a requester that drives it (notes/assumptions/4.md). -/
def State.withFetchWord (s : State) (nbits w : Nat) : State :=
  s.withRequest (requestOfTableWord s.params.W s.params.M nbits w)

end Sys2Proof.Machine
end

