-- ==== Sys2Proof/Machine/Listing.lean ====
section
/-! DEFINITION. The textual syntax of requests and responses (R64, D26): what a listing shows. No operation reads it. -/

namespace Sys2Proof.Machine

/-- A byte as R64's listings write it: `0x` and two hexadecimal digits. -/
def byteText (b : Byte) : String :=
  "0x" ++ String.singleton (Nat.digitChar (hi b).toNat).toUpper ++ String.singleton (Nat.digitChar (lo b).toNat).toUpper

/-- A sequence as R64 writes it: `[b0, b1, ...]`, first byte first, `[]` empty. -/
def seqText (s : ByteSeq) : String := "[" ++ String.intercalate ", " (s.map byteText) ++ "]"

/-- The request line of R64: mnemonic first, then the operands in the order of the table. -/
def instrText : Instr → String
  | .pack t o => "PACK " ++ toString t.toNat ++ ", " ++ toString o.toNat
  | .unpack b => "UNPACK " ++ byteText b
  | .validate b => "VALIDATE " ++ byteText b
  | .encode v n => "ENCODE " ++ toString v ++ ", " ++ toString n
  | .encmin v => "ENCMIN " ++ toString v
  | .decode s => "DECODE " ++ seqText s
  | .resize s n => "RESIZE " ++ seqText s ++ ", " ++ toString n
  | .frombytes s => "FROMBYTES " ++ seqText s
  | .frombytesn s n => "FROMBYTESN " ++ seqText s ++ ", " ++ toString n

/-- The results of an operation that succeeded, as 95_test_vectors.md writes them. -/
def resultText {W M : Nat} (o : Op) (r : Response W M) : String :=
  match o with
  | .pack => "byte_out = " ++ byteText r.byteOut
  | .unpack => "tens_out = " ++ toString r.tensOut.toNat ++ ", ones_out = " ++ toString r.onesOut.toNat
  | .validate => "valid_out = " ++ toString r.validOut.toNat
  | .encode => seqText (seqOfPort r.seqOut r.lenOut.toNat)
  | .encmin => seqText (seqOfPort r.seqOut r.lenOut.toNat)
  | .decode => "bin_out = " ++ toString r.binOut.toNat ++ ", lossy = " ++ toString r.lossy.toNat
  | .resize => seqText (seqOfPort r.seqOut r.lenOut.toNat)
  | .frombytes => seqText (seqOfPort r.seqOut r.lenOut.toNat)
  | .frombytesn => seqText (seqOfPort r.seqOut r.lenOut.toNat)

/-- The response line of R64: `-> OK <results>`, `-> OVERFLOW(v, max)` or `-> INVALID_FORMAT(i)`. The code 3 is never
produced (R131) and has no line. -/
def responseText {W M : Nat} (o : Op) (r : Response W M) : Option String :=
  if r.status = Status.ok.code then some ("-> OK " ++ resultText o r)
  else if r.status = Status.overflow.code then
    some ("-> OVERFLOW(" ++ toString r.errValue.toNat ++ ", " ++ toString r.errMax.toNat ++ ")")
  else if r.status = Status.invalidFormat.code then some ("-> INVALID_FORMAT(" ++ toString r.errIndex.toNat ++ ")")
  else none

end Sys2Proof.Machine
end

