-- ==== Sys2Proof/Safety.lean ====
section
/-! DEFINITION. The terms in which claims speak: what it is for an operation to answer, the responses the rules name
written out field by field, well-formed requests (R63), the fields an operation reads (R23, R27), legal responses and
the invariant of the machine. Nothing here is read by the machine. -/

namespace Sys2Proof.Machine

/-- An operation answers with `r`: it goes on, its response joins the pending ones as the youngest, and NOTHING ELSE of
the state changes. -/
def Answers (i : Instr) (s : State) (r : Response s.params.W s.params.M) : Prop :=
  exec i s = .next { s with pending := s.pending ++ [some r] }

/-- The natural that a sequence port carries for a sequence, as the sum of R25. -/
def portSum (b : ByteSeq) : Nat :=
  ∑ i ∈ Finset.range b.length, (b.getD i 0).toNat * 256 ^ (b.length - 1 - i)

/-- Every byte of the sequence is valid packed BCD (R75). -/
def AllValid (b : ByteSeq) : Prop := ∀ x ∈ b, x.toNat / 16 ≤ 9 ∧ x.toNat % 16 ≤ 9

/-- The integer that a valid sequence represents, as the sum of R41 over `10 * tens + ones`. -/
def represents (b : ByteSeq) : Nat :=
  ∑ i ∈ Finset.range b.length,
    (10 * ((b.getD i 0).toNat / 16) + (b.getD i 0).toNat % 16) * 100 ^ (b.length - 1 - i)

/-- The response OK with an output sequence, the other fields 0 (R25, R26). -/
def okSeq (W M : Nat) (b : ByteSeq) : Response W M :=
  { Response.zero W M with status := 0, seqOut := BitVec.ofNat _ (portSum b), lenOut := BitVec.ofNat _ b.length }

/-- The response OK of a decode, the other fields 0 (R26, R106). -/
def okInteger (W M v : Nat) (lossy : Bool) : Response W M :=
  { Response.zero W M with status := 0, binOut := BitVec.ofNat _ v, lossy := if lossy then 1 else 0 }

/-- The response OVERFLOW(v, max), the other fields 0 (R132). -/
def overflowed (W M v max : Nat) : Response W M :=
  { Response.zero W M with status := 1, errValue := BitVec.ofNat _ v, errMax := BitVec.ofNat _ max }

/-- The response INVALID_FORMAT(i), the other fields 0 (R133). -/
def badFormat (W M i : Nat) : Response W M :=
  { Response.zero W M with status := 2, errIndex := BitVec.ofNat _ i }

/-- `i` is the least index from `a` on of a byte of `b` that is not valid packed BCD (R136). -/
def FirstBadFrom (b : ByteSeq) (a i : Nat) : Prop :=
  a ≤ i ∧ i < b.length ∧ ¬((b.getD i 0).toNat / 16 ≤ 9 ∧ (b.getD i 0).toNat % 16 ≤ 9) ∧
    ∀ j, a ≤ j → j < i → (b.getD j 0).toNat / 16 ≤ 9 ∧ (b.getD j 0).toNat % 16 ≤ 9

/-- A request is well formed: the three conditions of R63. -/
def wellFormedRequest {W M : Nat} (r : Request W M) : Bool :=
  match decodeOp r.op with
  | none => false
  | some o => (!o.readsSeq || decide (r.lenIn.toNat ≤ M)) && (!o.readsCount || decide (r.nIn.toNat ≤ M))

/-- Two requests agree on every field the operation `o` reads (R23), and on the sequence port only on the bits that
`len_in` makes meaningful (R27). -/
def AgreeOnRead {W M : Nat} (o : Op) (r q : Request W M) : Prop :=
  r.op = q.op ∧
  (o.readsDigits = true → r.tensIn = q.tensIn ∧ r.onesIn = q.onesIn) ∧
  (o.readsByte = true → r.byteIn = q.byteIn) ∧
  (o.readsBin = true → r.binIn = q.binIn) ∧
  (o.readsCount = true → r.nIn = q.nIn) ∧
  (o.readsSeq = true →
    r.lenIn = q.lenIn ∧ ∀ k, k < 8 * r.lenIn.toNat → r.seqIn.getLsbD k = q.seqIn.getLsbD k)

/-- What every response obeys whichever operation gave it: the status is one of three (R131), a failure carries no
result (R26, R135), a success carries no error field (R26), `max < v` on an overflow (R132), an index inside the
longest sequence on an invalid format (R133), and the output sequence lies within its length, itself at most `M`
(R25). -/
abbrev Response.legal {W M : Nat} (r : Response W M) : Prop :=
  (r.status = 0 ∨ r.status = 1 ∨ r.status = 2) ∧
  (r.status ≠ 0 → r.byteOut = 0 ∧ r.tensOut = 0 ∧ r.onesOut = 0 ∧ r.validOut = 0 ∧ r.seqOut = 0 ∧ r.lenOut = 0 ∧
    r.binOut = 0 ∧ r.lossy = 0) ∧
  (r.status ≠ 1 → r.errValue = 0 ∧ r.errMax = 0) ∧
  (r.status ≠ 2 → r.errIndex = 0) ∧
  (r.status = 1 → r.errMax.toNat < r.errValue.toNat) ∧
  (r.status = 2 → r.errIndex.toNat < M) ∧
  (r.lenOut.toNat ≤ M ∧ r.seqOut.toNat < 256 ^ r.lenOut.toNat)

/-- A slot that holds no response, or a legal one. -/
abbrev SlotLegal {W M : Nat} (x : Option (Response W M)) : Prop := ∀ r ∈ x, r.legal

/-- A slot that holds no response or a legal one, or what the block presents for some malformed request, of which
nothing is specified (R157). -/
def SlotAllowed {W M : Nat} (x : Option (Response W M)) : Prop :=
  SlotLegal x ∨ ∃ (q : Request W M) (n : Nat), wellFormedRequest q = false ∧ x = Config.malformedSlot W M q n

/-- The invariant of the machine: between edges there are exactly `LAT` slots of pending responses (R28), and every
response pending or presented is legal, unless it is what the block presents for a malformed request. -/
abbrev State.Inv (s : State) : Prop :=
  s.pending.length = s.params.LAT ∧
  (∀ x ∈ s.pending, SlotAllowed x) ∧
  SlotAllowed s.rsp

/-- The invariant of a block to which no malformed request has come: exactly `LAT` slots, and every response pending or
presented legal. -/
def State.AllLegal (s : State) : Prop :=
  s.pending.length = s.params.LAT ∧
  (∀ x ∈ s.pending, SlotLegal x) ∧
  SlotLegal s.rsp

/-- What an edge makes of a state when it puts the slot `x` behind the pending responses: the oldest slot is presented,
the requester moves on, the rest is unchanged. `o :: q` is the line of slots with `x` at its end. -/
def EdgeGives (s t : State) (x : Option (Response s.params.W s.params.M)) : Prop :=
  ∃ o q, o :: q = s.pending ++ [x] ∧
    t = { s with
          inputs := s.later.headD (Inputs.idle s.params.W s.params.M)
          later := s.later.tail
          pending := q
          rsp := o }

/-- `LAT` edges after the coming one the block presents the slot `x`; the parameters are what they were. -/
def PresentedAfterLat (s : State) (x : Option (Response s.params.W s.params.M)) : Prop :=
  ∃ (inputs : Inputs s.params.W s.params.M) (later : List (Inputs s.params.W s.params.M))
    (pending : List (Option (Response s.params.W s.params.M))) (free : Nat),
    Sys2Proof.core.run (s.params.LAT + 1) s =
      .next { s with inputs := inputs, later := later, pending := pending, rsp := x, free := free }

/-- An edge whose inputs neither reset the block nor put a malformed request to it. -/
def Inputs.calm {W M : Nat} (i : Inputs W M) : Prop :=
  i.rst = false ∧ (i.reqValid = true → wellFormedRequest i.req = true)

/-- An edge whose inputs make the block accept nothing (R150, R157). -/
def Inputs.quiet {W M : Nat} (i : Inputs W M) : Prop := i.rst = true ∨ i.reqValid = false

end Sys2Proof.Machine
end

