-- ==== Sys2Proof/Certificates/Slice0/Obligations.lean ====
section
/-! DEFINITION. The statements for the provers. Each docstring names the rule of spec/ it formalises. A clause that
rests on a sentence the spec marks `[derived: …]`, or on a row of the assumption log, is named as such. `Answers i s r`
says that `exec i s` IS a next state, that its youngest pending response is `r`, and that nothing else of the state
changed; `r` is written out with all twelve fields (the ones not named are those of `Response.zero`). -/

open Sys2Proof Sys2Proof.Machine

/-! ### Encoding -/

/-- R57: the value of `op` that selects each of the nine operations, and R60: the other seven select none. -/
def Obligations.OperationCodesAreTheTables : Prop :=
  decodeOp 0x0 = some .pack ∧ decodeOp 0x1 = some .unpack ∧ decodeOp 0x2 = some .validate ∧
  decodeOp 0x4 = some .encode ∧ decodeOp 0x5 = some .encmin ∧ decodeOp 0x8 = some .decode ∧
  decodeOp 0xC = some .resize ∧ decodeOp 0xD = some .frombytes ∧ decodeOp 0xE = some .frombytesn ∧
  ∀ c : BitVec 4, decodeOp c = none ↔
    (c = 0x3 ∨ c = 0x6 ∨ c = 0x7 ∨ c = 0x9 ∨ c = 0xA ∨ c = 0xB ∨ c = 0xF)

/-- A few request records of 95_test_vectors.md section 4 (`W = 16`, `M = 4`), every port written out, decode to the
operation each stands for. -/
def Obligations.WrittenOutRequestsDecode : Prop :=
  decode ({ op := 0x0, tensIn := 4, onesIn := 5, byteIn := 0, binIn := 0, nIn := 0, seqIn := 0, lenIn := 0 } :
    Request 16 4) = .ok (.pack 4 5) ∧
  decode ({ op := 0x4, tensIn := 0, onesIn := 0, byteIn := 0, binIn := 0x04D2, nIn := 2, seqIn := 0, lenIn := 0 } :
    Request 16 4) = .ok (.encode 1234 2) ∧
  decode ({ op := 0x8, tensIn := 0, onesIn := 0, byteIn := 0, binIn := 0, nIn := 0, seqIn := 0xFFFF1234, lenIn := 2 } :
    Request 16 4) = .ok (.decode [0x12, 0x34]) ∧
  decode ({ op := 0xC, tensIn := 0, onesIn := 0, byteIn := 0, binIn := 0, nIn := 1, seqIn := 0x1234, lenIn := 2 } :
    Request 16 4) = .ok (.resize [0x12, 0x34] 1)

/-- Decode and encode agree: for an instance of any width and capacity, the request record that the encoder writes for
a well-formed instruction decodes to that instruction, with every operand at every value its port admits (R23, R25,
R57, R64). -/
def Obligations.DecodeOfEncodeIsTheInstruction : Prop :=
  ∀ (W M : Nat) (i : Instr), i.wellFormed W M = true → decode (encode W M i) = .ok i

/-- What the decoder reads is well formed, and encoding it again gives a request that agrees with the one read on every
field the operation reads (R23, R25, R63). -/
def Obligations.EncodeOfDecodeAgreesOnFieldsRead : Prop :=
  ∀ (W M : Nat) (r : Request W M) (i : Instr), decode r = .ok i →
    i.wellFormed W M = true ∧ decodeOp r.op = some i.op ∧ AgreeOnRead i.op r (encode W M i)

/-- R27 (which the spec marks derived from R23, R25, R11): requests that differ only in fields the operation does not
read, or in bits of `seq_in` at or above `8 * len_in`, are the same instruction, or are rejected under the same
name. -/
def Obligations.FieldsNotReadAreIgnored : Prop :=
  ∀ (W M : Nat) (o : Op) (r q : Request W M), decodeOp r.op = some o → AgreeOnRead o r q → decode r = decode q

/-- R63: the decoder reads an instruction from a request exactly when the three conditions hold, and otherwise nothing,
so that no operation is executed; conditions 2 and 3 can fail only when `M + 1` is not a power of two; and a well-formed
request always gets a response, with status OK, OVERFLOW or INVALID_FORMAT. The conditions are written out: a code of the
nine; `len_in <= M` on the four operations that read it; `n_in <= M` on the three that read it. -/
def Obligations.RequestIsExecutedIffWellFormed : Prop :=
  (∀ (W M : Nat) (r : Request W M),
    ((∃ i, decode r = .ok i) ↔
      (r.op ∈ [0x0, 0x1, 0x2, 0x4, 0x5, 0x8, 0xC, 0xD, 0xE] ∧
        (r.op ∈ [0x8, 0xC, 0xD, 0xE] → r.lenIn.toNat ≤ M) ∧ (r.op ∈ [0x4, 0xC, 0xE] → r.nIn.toNat ≤ M))) ∧
    (1 ≤ M → r.op ∈ [0x0, 0x1, 0x2, 0x4, 0x5, 0x8, 0xC, 0xD, 0xE] → (∃ k, M + 1 = 2 ^ k) → ∃ i, decode r = .ok i)) ∧
  ∀ (s : State) (i : Instr), decode s.inputs.req = .ok i → ∃ r : Response s.params.W s.params.M,
    Answers i s r ∧ (r.status = 0 ∨ r.status = 1 ∨ r.status = 2)

/-- The names under which the decoder rejects (the names and their order are the model's, notes/assumptions/5.md): a
reserved code (U1); else a length above `M`; else a byte count above `M` (U2). Neither a length nor a count is cut down
to `M`. -/
def Obligations.RejectedRequestsAreNamed : Prop :=
  ∀ (W M : Nat) (r : Request W M),
    (decodeOp r.op = none → decode r = .error (.reservedOp r.op)) ∧
    (∀ o, decodeOp r.op = some o →
      (o.readsSeq = true → M < r.lenIn.toNat → decode r = .error (.lengthAboveCapacity r.lenIn.toNat)) ∧
      (o.readsCount = true → M < r.nIn.toNat → (o.readsSeq = true → r.lenIn.toNat ≤ M) →
        decode r = .error (.countAboveCapacity r.nIn.toNat)))

/-! ### Constants -/

/-- R6: `K(W)` is the largest `k` with `10^(2k) <= 2^W`, `LW` is the number of bits of `M`, and the values the rule
tabulates for `K`, `NMIN` and `LW`. -/
def Obligations.DerivedConstantsAreAsDefined : Prop :=
  (∀ W, 10 ^ (2 * bytesThatFit W) ≤ 2 ^ W ∧ ∀ k, 10 ^ (2 * k) ≤ 2 ^ W → k ≤ bytesThatFit W) ∧
  (∀ M, 1 ≤ M → 2 ^ (lengthWidth M - 1) ≤ M ∧ M < 2 ^ lengthWidth M) ∧
  [8, 16, 32, 64, 128].map bytesThatFit = [1, 2, 4, 9, 19] ∧ [8, 16, 32, 64, 128].map nmin = [2, 3, 5, 10, 20] ∧
  [6, 7, 13, 14].map bytesThatFit = [0, 1, 1, 2] ∧
  [1, 2, 3, 4, 7, 8, 15, 16, 31].map lengthWidth = [1, 2, 2, 3, 3, 4, 4, 5, 5]

/-- R95 (its second part is arithmetic the spec marks derived): `minlen(v)` is the least `n >= 1` with
`v <= maxval(n)`; `minlen(0) = 1`; and for `v >= 1`, `minlen(v) = k` iff `100^(k-1) <= v < 100^k` (`k >= 1`). -/
def Obligations.MinimalLengthIsLeast : Prop :=
  ∀ v, (1 ≤ minlen v ∧ v ≤ 10 ^ (2 * minlen v) - 1 ∧ ∀ n, 1 ≤ n → v ≤ 10 ^ (2 * n) - 1 → minlen v ≤ n) ∧
    minlen 0 = 1 ∧ ∀ k, 1 ≤ v → 1 ≤ k → (minlen v = k ↔ 100 ^ (k - 1) ≤ v ∧ v < 100 ^ k)

/-- R94 (marked derived): from `NMIN(W)` on no value of the port overflows, and below it the largest one does. -/
def Obligations.OverflowIsPossibleExactlyBelowNmin : Prop :=
  ∀ W n, (nmin W ≤ n → ∀ v, v < 2 ^ W → v ≤ 10 ^ (2 * n) - 1) ∧
    (1 ≤ W → n < nmin W → 10 ^ (2 * n) - 1 < 2 ^ W - 1)

/-! ### Digit-pair codec -/

/-- R75, with the count the spec marks derived: nibbles by division, validity by both nibbles, 100 valid bytes. -/
def Obligations.ValidBytesAreTheHundredDigitPairs : Prop :=
  (∀ b : Byte, (hi b).toNat = b.toNat / 16 ∧ (lo b).toNat = b.toNat % 16 ∧
    (validByte b = true ↔ (hi b).toNat ≤ 9 ∧ (lo b).toNat ≤ 9)) ∧
  ((List.range 256).filter fun n => validByte (BitVec.ofNat 8 n)).length = 100

/-- R76: the request with `op = 0x0` is `PACK`; it answers OK with `(t << 4) | o = 16 * t + o` for all sixteen values
of either digit, and the byte is valid packed BCD iff both digits are at most 9. -/
def Obligations.PackGivesTheByteOfItsDigits : Prop :=
  (∀ (W M : Nat) (r : Request W M), r.op = 0x0 → decode r = .ok (.pack r.tensIn r.onesIn)) ∧
  ∀ (s : State) (t o : Nibble), ∃ b : Byte,
    Answers (.pack t o) s { Response.zero s.params.W s.params.M with status := 0, byteOut := b } ∧
    b.toNat = 16 * t.toNat + o.toNat ∧ (validByte b = true ↔ t.toNat ≤ 9 ∧ o.toNat ≤ 9)

/-- R77: the request with `op = 0x1` is `UNPACK`; it answers OK with the two nibbles, for every byte, valid or not. -/
def Obligations.UnpackGivesTheNibblesOfItsByte : Prop :=
  (∀ (W M : Nat) (r : Request W M), r.op = 0x1 → decode r = .ok (.unpack r.byteIn)) ∧
  ∀ (s : State) (b : Byte), ∃ t o : Nibble,
    Answers (.unpack b) s { Response.zero s.params.W s.params.M with status := 0, tensOut := t, onesOut := o } ∧
    t.toNat = b.toNat / 16 ∧ o.toNat = b.toNat % 16 ∧
    ∀ t' o' : Nibble, b.toNat = 16 * t'.toNat + o'.toNat → t = t' ∧ o = o'

/-- R78: the request with `op = 0x2` is `VALIDATE`; it answers OK with 1 iff both nibbles are at most 9, else 0. -/
def Obligations.ValidateTellsWhetherBothNibblesAreDigits : Prop :=
  (∀ (W M : Nat) (r : Request W M), r.op = 0x2 → decode r = .ok (.validate r.byteIn)) ∧
  ∀ (s : State) (b : Byte),
    Answers (.validate b) s
      { Response.zero s.params.W s.params.M with
        status := 0
        validOut := if b.toNat / 16 ≤ 9 ∧ b.toNat % 16 ≤ 9 then 1 else 0 }

/-- R79 and R80: the two helpers, by their formulas: `unpack_value` is `10 * hi + lo` on a valid byte and `invalid` on
another, and `pair_byte(dp)` is the valid byte whose nibbles are `dp / 10` and `dp % 10`. -/
def Obligations.HelperFunctionsFollowTheirFormulas : Prop :=
  (∀ b : Byte, unpackValue b =
    if b.toNat / 16 ≤ 9 ∧ b.toNat % 16 ≤ 9 then some (10 * (b.toNat / 16) + b.toNat % 16) else none) ∧
  ∀ dp, dp ≤ 99 → (pairByte dp).toNat = 16 * (dp / 10) + dp % 10 ∧ validByte (pairByte dp) = true ∧
    (pairByte dp).toNat = dp + 6 * (dp / 10)

/-- R81, laws 1 to 6, which the spec marks derived from R75 to R80: packing and unpacking are inverse both ways, a
packed byte validates iff its digits do, and `unpack_value` is an increasing bijection from the valid bytes onto
`[0, 99]` with inverse `pair_byte`. -/
def Obligations.CodecLawsHold : Prop :=
  (∀ t o : Nibble, hi (packNibbles t o) = t ∧ lo (packNibbles t o) = o) ∧
  (∀ b : Byte, packNibbles (hi b) (lo b) = b) ∧
  (∀ t o : Nibble, validFlag (packNibbles t o) = 1 ↔ t.toNat ≤ 9 ∧ o.toNat ≤ 9) ∧
  (∀ dp, dp ≤ 99 → unpackValue (pairByte dp) = some dp) ∧
  (∀ b : Byte, validByte b = true → ∃ d, d ≤ 99 ∧ unpackValue b = some d ∧ pairByte d = b) ∧
  ∀ (b c : Byte) (d e : Nat), unpackValue b = some d → unpackValue c = some e → (b.toNat < c.toNat ↔ d < e)

/-! ### Integer encoder -/

/-- R91: the request with `op = 0x4` is `ENCODE`. When `v <= 10^(2n) - 1` the loop runs: `x` is `v` at its start, each
of the `p` turns finds it non-zero, takes `x % 100` and divides `x` by 100, and `x` is 0 at its end; the output, read from
its last byte to its first, is the digit-pair bytes in the order pushed and then zero bytes up to length `n`. When
`v > 10^(2n) - 1` the answer is OVERFLOW with `v` and the exact bound, neither of them cut by the width of its port. -/
def Obligations.EncodeRunsTheDivisionLoopOrOverflows : Prop :=
  (∀ (W M : Nat) (r : Request W M), r.op = 0x4 → r.nIn.toNat ≤ M →
    decode r = .ok (.encode r.binIn.toNat r.nIn.toNat)) ∧
  ∀ (s : State) (v n : Nat), v < 2 ^ s.params.W → n ≤ s.params.M →
    (v ≤ 10 ^ (2 * n) - 1 → ∃ (b : ByteSeq) (p : Nat) (x : Nat → Nat),
      Answers (.encode v n) s (okSeq s.params.W s.params.M b) ∧ b.length = n ∧
      (okSeq s.params.W s.params.M b).lenOut.toNat = n ∧
      x 0 = v ∧ (∀ j, j < p → x j ≠ 0 ∧ x (j + 1) = x j / 100) ∧ x p = 0 ∧ p ≤ n ∧
      b.reverse = (List.range p).map (fun j => pairByte (x j % 100)) ++ List.replicate (n - p) 0x00) ∧
    (10 ^ (2 * n) - 1 < v →
      Answers (.encode v n) s (overflowed s.params.W s.params.M v (10 ^ (2 * n) - 1)) ∧
      (overflowed s.params.W s.params.M v (10 ^ (2 * n) - 1)).errValue.toNat = v ∧
      (overflowed s.params.W s.params.M v (10 ^ (2 * n) - 1)).errMax.toNat = 10 ^ (2 * n) - 1)

/-- R92 (marked derived): the closed form of a successful `ENCODE`: `n` bytes, byte `i` being
`pair_byte((v / 100^(n-1-i)) % 100)`, and the port value their sum in base 256. -/
def Obligations.EncodeHasItsClosedForm : Prop :=
  ∀ (s : State) (v n : Nat), v < 2 ^ s.params.W → n ≤ s.params.M → v ≤ 10 ^ (2 * n) - 1 → ∃ b : ByteSeq,
    Answers (.encode v n) s (okSeq s.params.W s.params.M b) ∧ b.length = n ∧
    (okSeq s.params.W s.params.M b).seqOut.toNat = portSum b ∧
    ∀ i, i < n → b[i]? = some (pairByte (v / 100 ^ (n - 1 - i) % 100))

/-- R93 (marked derived): the encoder's loop runs exactly as many times as `v` has base-100 digits, which is at most `n`
once the bound check passed, and at most `NMIN(W)` whatever `n` is. -/
def Obligations.EncoderLoopIsBounded : Prop :=
  (∀ v p, 1 ≤ v → 1 ≤ p → 100 ^ (p - 1) ≤ v → v < 100 ^ p → (pushPairs v v).length = p) ∧
  pushPairs 0 0 = [] ∧
  (∀ v n, v ≤ 10 ^ (2 * n) - 1 → (pushPairs v v).length ≤ n) ∧
  ∀ W v, v < 2 ^ W → (pushPairs v v).length ≤ nmin W

/-- The overflow boundary of 95_test_vectors.md T14: `10^(2n)` fails and `10^(2n) - 1` gives `n` bytes of `0x99`. -/
def Obligations.EncodeOverflowBoundary : Prop :=
  ∀ (s : State) (n : Nat), n ≤ s.params.M →
    (10 ^ (2 * n) < 2 ^ s.params.W →
      Answers (.encode (10 ^ (2 * n)) n) s
        (overflowed s.params.W s.params.M (10 ^ (2 * n)) (10 ^ (2 * n) - 1))) ∧
    (10 ^ (2 * n) - 1 < 2 ^ s.params.W →
      Answers (.encode (10 ^ (2 * n) - 1) n) s (okSeq s.params.W s.params.M (List.replicate n 0x99)))

/-- R96: the request with `op = 0x5` is `ENCMIN`, whatever `n_in` holds; when `v <= 10^(2M) - 1` it answers the sequence
`ENCODE` gives at `n = minlen(v)`, `1 <= n <= M`, whose first byte is not `0x00` unless `v = 0`; when
`v > 10^(2M) - 1`, which cannot happen when `M >= NMIN(W)`, it answers OVERFLOW with the capacity's bound. -/
def Obligations.EncminIsEncodeAtTheMinimalLength : Prop :=
  (∀ (W M : Nat) (r : Request W M), r.op = 0x5 → decode r = .ok (.encmin r.binIn.toNat)) ∧
  ∀ (s : State) (v : Nat), v < 2 ^ s.params.W →
    (v ≤ 10 ^ (2 * s.params.M) - 1 → ∃ b : ByteSeq,
      Answers (.encmin v) s (okSeq s.params.W s.params.M b) ∧ b.length = minlen v ∧
      1 ≤ minlen v ∧ minlen v ≤ s.params.M ∧
      Answers (.encode v (minlen v)) s (okSeq s.params.W s.params.M b) ∧
      (v = 0 → b = [0x00]) ∧ (1 ≤ v → b[0]? ≠ some 0x00)) ∧
    (10 ^ (2 * s.params.M) - 1 < v →
      Answers (.encmin v) s (overflowed s.params.W s.params.M v (10 ^ (2 * s.params.M) - 1)) ∧
      (overflowed s.params.W s.params.M v (10 ^ (2 * s.params.M) - 1)).errValue.toNat = v ∧
      (overflowed s.params.W s.params.M v (10 ^ (2 * s.params.M) - 1)).errMax.toNat = 10 ^ (2 * s.params.M) - 1 ∧
      s.params.M < nmin s.params.W)

/-- R98, properties 1 to 3 (marked derived): the output of a successful `ENCODE` or `ENCMIN` has valid bytes only, the
length asked for or the minimal one, and represents `v`. -/
def Obligations.EncoderOutputIsValidAndRepresentsItsInput : Prop :=
  ∀ (s : State) (v : Nat), v < 2 ^ s.params.W →
    (∀ n, n ≤ s.params.M → v ≤ 10 ^ (2 * n) - 1 → ∃ b : ByteSeq,
      Answers (.encode v n) s (okSeq s.params.W s.params.M b) ∧ AllValid b ∧ b.length = n ∧ represents b = v) ∧
    (v ≤ 10 ^ (2 * s.params.M) - 1 → ∃ b : ByteSeq,
      Answers (.encmin v) s (okSeq s.params.W s.params.M b) ∧ AllValid b ∧ b.length = minlen v ∧ represents b = v)

/-- R98, properties 4 and 5 (marked derived): a wider encoding is the narrower one padded with zero bytes, and is what
`RESIZE` makes of it; and any encoding wide enough is `RESIZE` of the minimal one. -/
def Obligations.EncodingsOfOneValueDifferByZeroPadding : Prop :=
  ∀ (s : State) (v n : Nat), v < 2 ^ s.params.W → n ≤ s.params.M → v ≤ 10 ^ (2 * n) - 1 →
    ∃ b : ByteSeq, Answers (.encode v n) s (okSeq s.params.W s.params.M b) ∧ b.length = n ∧
      (∀ n', n < n' → n' ≤ s.params.M →
        Answers (.encode v n') s (okSeq s.params.W s.params.M (List.replicate (n' - n) 0x00 ++ b)) ∧
        Answers (.resize b n') s (okSeq s.params.W s.params.M (List.replicate (n' - n) 0x00 ++ b))) ∧
      (minlen v ≤ n → ∃ c : ByteSeq, c.length = minlen v ∧
        Answers (.encmin v) s (okSeq s.params.W s.params.M c) ∧
        Answers (.resize c n) s (okSeq s.params.W s.params.M b))

/-- R98, property 6 (marked derived): at one byte count, `ENCODE` is strictly increasing, comparing `seq_out` as a
natural. -/
def Obligations.EncodeIsStrictlyIncreasing : Prop :=
  ∀ (s : State) (u v n : Nat), u < v → v < 2 ^ s.params.W → n ≤ s.params.M → v ≤ 10 ^ (2 * n) - 1 →
    ∃ q r : Response s.params.W s.params.M,
      Answers (.encode u n) s q ∧ Answers (.encode v n) s r ∧ q.status = 0 ∧ r.status = 0 ∧
      q.seqOut.toNat < r.seqOut.toNat

/-- The aliases of R65 (the two the spec marks derived): `unpack_value(b)` is `DECODE [b]` when `K(W) >= 1`, and
`PAIRENC dp` gives `pair_byte(dp)` up to 99 and overflows above. -/
def Obligations.AliasesExpandAsStated : Prop :=
  ∀ s : State,
    (∀ b : Byte, 1 ≤ bytesThatFit s.params.W →
      (∀ d, unpackValue b = some d →
        Answers (Instr.unpackValue b) s (okInteger s.params.W s.params.M d false)) ∧
      (unpackValue b = none → Answers (Instr.unpackValue b) s (badFormat s.params.W s.params.M 0))) ∧
    ∀ dp, dp < 2 ^ s.params.W →
      (dp ≤ 99 → Answers (Instr.pairEnc dp) s (okSeq s.params.W s.params.M [pairByte dp])) ∧
      (99 < dp → Answers (Instr.pairEnc dp) s (overflowed s.params.W s.params.M dp 99))

/-! ### Integer decoder -/

/-- R106 and R107: the request with `op = 0x8` is `DECODE`. With `k = min(L, K(W))`: when the last `k` bytes are valid it
answers OK with the fold `acc * 100 + 10 * hi + lo` over them from 0, which the `W`-bit port holds whole, and `lossy = 1`
iff `L > K(W)`; when some of them is not valid, it answers INVALID_FORMAT with the index, in the whole sequence, of the
first such byte. The leading `L - k` bytes are not looked at: neither clause has a premise on them. -/
def Obligations.DecodeFoldsTheTrailingBytesThatFit : Prop :=
  (∀ (W M : Nat) (r : Request W M), r.op = 0x8 → r.lenIn.toNat ≤ M →
    decode r = .ok (.decode (seqOfPort r.seqIn r.lenIn.toNat))) ∧
  ∀ (s : State) (b : ByteSeq), b.length ≤ s.params.M →
    (AllValid (b.drop (b.length - min b.length (bytesThatFit s.params.W))) → ∃ acc,
      acc = (b.drop (b.length - min b.length (bytesThatFit s.params.W))).foldl
        (fun a x => a * 100 + (10 * (x.toNat / 16) + x.toNat % 16)) 0 ∧
      acc < 2 ^ s.params.W ∧
      Answers (.decode b) s
        (okInteger s.params.W s.params.M acc (decide (bytesThatFit s.params.W < b.length)))) ∧
    ∀ i, FirstBadFrom b (b.length - min b.length (bytesThatFit s.params.W)) i →
      Answers (.decode b) s (badFormat s.params.W s.params.M i) ∧
      (badFormat s.params.W s.params.M i).errIndex.toNat = i

/-- R25: byte `i` of the input sequence is bits `8 * (L - 1 - i) + 7 .. 8 * (L - 1 - i)` of the port, and a sequence that
the output form puts on a port is read back from it whole, whatever stands above it. -/
def Obligations.SequencesLieRightJustified : Prop :=
  (∀ (w L : Nat) (p : BitVec w), (seqOfPort p L).length = L ∧
    ∀ i, i < L → ∀ k, k < 8 →
      ((seqOfPort p L).getD i 0).getLsbD k = p.getLsbD (8 * (L - 1 - i) + k)) ∧
  ∀ (M : Nat) (b : ByteSeq) (p : BitVec (8 * M)), b.length ≤ M →
    (seqToPort M b).toNat = portSum b ∧ portSum b < 256 ^ b.length ∧
    (p.toNat % 256 ^ b.length = portSum b → seqOfPort p b.length = b)

/-- R108 (marked derived): after `j` valid bytes the accumulator is at most `100^j - 1`, so with no more than `K(W)`
bytes no step of the fold needs more than `W` bits. -/
def Obligations.DecoderAccumulatorNeverExceedsItsWidth : Prop :=
  ∀ (b : ByteSeq) (i acc : Nat), foldPairs i 0 b = .ok acc →
    acc ≤ 100 ^ b.length - 1 ∧ ∀ W, b.length ≤ bytesThatFit W → acc < 2 ^ W

/-- R109 (marked derived), lossless case: with `L <= K(W)` and every byte valid, `DECODE` answers the integer the whole
sequence represents and `lossy = 0`. -/
def Obligations.LosslessDecodeGivesTheWholeInteger : Prop :=
  ∀ (s : State) (b : ByteSeq), b.length ≤ s.params.M → b.length ≤ bytesThatFit s.params.W → AllValid b →
    Answers (.decode b) s (okInteger s.params.W s.params.M (represents b) false) ∧
    (okInteger s.params.W s.params.M (represents b) false).binOut.toNat = represents b

/-- R110 (marked derived), lossy case: with `L > K(W)` and the last `K(W)` bytes valid, `DECODE` answers what they
represent with `lossy = 1`; when all bytes are valid that is the represented integer modulo `10^(2 K(W))`; and it is the
value of `DECODE` of the sequence that `RESIZE` cuts to `K(W)` bytes, only `lossy` differing. -/
def Obligations.LossyDecodeGivesTheLowDigits : Prop :=
  ∀ (s : State) (b : ByteSeq), b.length ≤ s.params.M → bytesThatFit s.params.W < b.length →
    AllValid (b.drop (b.length - bytesThatFit s.params.W)) → ∃ v, v < 2 ^ s.params.W ∧
      Answers (.decode b) s (okInteger s.params.W s.params.M v true) ∧
      (AllValid b → v = represents b % 10 ^ (2 * bytesThatFit s.params.W)) ∧
      ∃ c : ByteSeq, c.length = bytesThatFit s.params.W ∧
        Answers (.resize b (bytesThatFit s.params.W)) s (okSeq s.params.W s.params.M c) ∧
        Answers (.decode c) s (okInteger s.params.W s.params.M v false)

/-- The document's round trip, with the condition C8 gives it (R109, R110, R111, all marked derived): what `ENCODE v, n`
gives, `DECODE` turns back into `v` with `lossy = 0` when `n <= K(W)`, and into `v % 10^(2 K(W))` with `lossy = 1`
otherwise. -/
def Obligations.DecodeOfEncodeReturnsTheInteger : Prop :=
  ∀ (s : State) (v n : Nat), v < 2 ^ s.params.W → n ≤ s.params.M → v ≤ 10 ^ (2 * n) - 1 →
    ∃ b : ByteSeq, Answers (.encode v n) s (okSeq s.params.W s.params.M b) ∧
      (n ≤ bytesThatFit s.params.W → Answers (.decode b) s (okInteger s.params.W s.params.M v false)) ∧
      (bytesThatFit s.params.W < n →
        Answers (.decode b) s
          (okInteger s.params.W s.params.M (v % 10 ^ (2 * bytesThatFit s.params.W)) true))

/-! ### Sequence operations -/

/-- R117 with R116: the request with `op = 0xC` is `RESIZE`; it answers OK with a sequence of length `n` that ends as the
input ends and has `0x00` before it. No byte is validated. The last clause, that the output port is the input sequence's
port value modulo `256^n`, is the sentence of R116 that the spec marks derived (from R25). -/
def Obligations.ResizeTruncatesOrPads : Prop :=
  (∀ (W M : Nat) (r : Request W M), r.op = 0xC → r.lenIn.toNat ≤ M → r.nIn.toNat ≤ M →
    decode r = .ok (.resize (seqOfPort r.seqIn r.lenIn.toNat) r.nIn.toNat)) ∧
  ∀ (s : State) (b : ByteSeq) (n : Nat), b.length ≤ s.params.M → n ≤ s.params.M → ∃ c : ByteSeq,
    Answers (.resize b n) s (okSeq s.params.W s.params.M c) ∧
    (b.length = n → c = b) ∧ (n < b.length → c = b.drop (b.length - n)) ∧
    (b.length < n → c = List.replicate (n - b.length) 0x00 ++ b) ∧
    (okSeq s.params.W s.params.M c).lenOut.toNat = n ∧
    (okSeq s.params.W s.params.M c).seqOut.toNat = portSum b % 256 ^ n

/-- R118, laws 1 to 4 (marked derived): the length, the resize identity, what a valid sequence represents after it, and
which invalid bytes survive. -/
def Obligations.ResizeLawsHold : Prop :=
  ∀ (b : ByteSeq) (n : Nat), (truncateOrPad b n).length = n ∧
    (∀ n', n ≤ n' ∨ b.length ≤ n' → truncateOrPad (truncateOrPad b n') n = truncateOrPad b n) ∧
    (AllValid b → AllValid (truncateOrPad b n) ∧ represents (truncateOrPad b n) = represents b % 100 ^ n ∧
      (represents b ≤ 10 ^ (2 * n) - 1 ∨ b.length ≤ n → represents (truncateOrPad b n) = represents b)) ∧
    (AllValid (truncateOrPad b n) ↔ AllValid (b.drop (b.length - min b.length n)))

/-- R119: the request with `op = 0xD` is `FROMBYTES`, whatever `n_in` holds; when every byte is valid it answers OK with
the sequence verbatim, and otherwise INVALID_FORMAT with the least index of an invalid byte. -/
def Obligations.FrombytesCopiesAValidSequence : Prop :=
  (∀ (W M : Nat) (r : Request W M), r.op = 0xD → r.lenIn.toNat ≤ M →
    decode r = .ok (.frombytes (seqOfPort r.seqIn r.lenIn.toNat))) ∧
  ∀ (s : State) (b : ByteSeq), b.length ≤ s.params.M →
    (AllValid b → Answers (.frombytes b) s (okSeq s.params.W s.params.M b)) ∧
    ∀ i, FirstBadFrom b 0 i → Answers (.frombytes b) s (badFormat s.params.W s.params.M i) ∧
      (badFormat s.params.W s.params.M i).errIndex.toNat = i

/-- R121 and R122: the request with `op = 0xE` is `FROMBYTESN`; when every input byte is valid it answers OK with the
truncated or padded sequence, and otherwise, an invalid byte that truncation would drop included, INVALID_FORMAT with
the least index of an invalid byte. -/
def Obligations.FrombytesnValidatesThenTruncatesOrPads : Prop :=
  (∀ (W M : Nat) (r : Request W M), r.op = 0xE → r.lenIn.toNat ≤ M → r.nIn.toNat ≤ M →
    decode r = .ok (.frombytesn (seqOfPort r.seqIn r.lenIn.toNat) r.nIn.toNat)) ∧
  ∀ (s : State) (b : ByteSeq) (n : Nat), b.length ≤ s.params.M → n ≤ s.params.M →
    (AllValid b → ∃ c : ByteSeq, Answers (.frombytesn b n) s (okSeq s.params.W s.params.M c) ∧ c.length = n ∧
      (b.length = n → c = b) ∧ (n < b.length → c = b.drop (b.length - n)) ∧
      (b.length < n → c = List.replicate (n - b.length) 0x00 ++ b)) ∧
    ∀ i, FirstBadFrom b 0 i → Answers (.frombytesn b n) s (badFormat s.params.W s.params.M i) ∧
      (badFormat s.params.W s.params.M i).errIndex.toNat = i

/-- R120 and R123 (marked derived): `FROMBYTES` answers OK iff `VALIDATE` answers 1 for each byte, its output then
decodes without failure, and `FROMBYTESN` is `FROMBYTES` followed by `RESIZE`, failing with the same index. -/
def Obligations.FrombytesnIsFrombytesThenResize : Prop :=
  ∀ (s : State) (b : ByteSeq) (n : Nat), b.length ≤ s.params.M → n ≤ s.params.M →
    (((∀ x ∈ b, Answers (.validate x) s { Response.zero s.params.W s.params.M with status := 0, validOut := 1 }) ∧
        Answers (.frombytes b) s (okSeq s.params.W s.params.M b) ∧
        (∃ r : Response s.params.W s.params.M, Answers (.decode b) s r ∧ r.status = 0) ∧
        ∃ c : ByteSeq, Answers (.resize b n) s (okSeq s.params.W s.params.M c) ∧
          Answers (.frombytesn b n) s (okSeq s.params.W s.params.M c)) ∨
      ((∃ x ∈ b, Answers (.validate x) s { Response.zero s.params.W s.params.M with status := 0, validOut := 0 }) ∧
        ∃ i, Answers (.frombytes b) s (badFormat s.params.W s.params.M i) ∧
          Answers (.frombytesn b n) s (badFormat s.params.W s.params.M i)))

/-! ### The error model -/

/-- R134 (marked derived): which operation can give which status, all nine rows of the rule's table. -/
def Obligations.StatusesAreThoseOfTheTable : Prop :=
  ∀ s : State,
    (∀ t o, ∃ r : Response s.params.W s.params.M, Answers (.pack t o) s r ∧ r.status = 0) ∧
    (∀ b, ∃ r : Response s.params.W s.params.M, Answers (.unpack b) s r ∧ r.status = 0) ∧
    (∀ b, ∃ r : Response s.params.W s.params.M, Answers (.validate b) s r ∧ r.status = 0) ∧
    (∀ v n, v < 2 ^ s.params.W → n ≤ s.params.M → ∃ r : Response s.params.W s.params.M,
      Answers (.encode v n) s r ∧ r.status = if v ≤ 10 ^ (2 * n) - 1 then 0 else 1) ∧
    (∀ v, v < 2 ^ s.params.W → ∃ r : Response s.params.W s.params.M,
      Answers (.encmin v) s r ∧ r.status = if v ≤ 10 ^ (2 * s.params.M) - 1 then 0 else 1) ∧
    (∀ b : ByteSeq, b.length ≤ s.params.M → ∃ r : Response s.params.W s.params.M,
      Answers (.decode b) s r ∧ (r.status = 0 ∨ r.status = 2) ∧
      (r.status = 0 ↔ AllValid (b.drop (b.length - min b.length (bytesThatFit s.params.W))))) ∧
    (∀ (b : ByteSeq) (n : Nat), b.length ≤ s.params.M → n ≤ s.params.M → ∃ r : Response s.params.W s.params.M,
      Answers (.resize b n) s r ∧ r.status = 0) ∧
    (∀ b : ByteSeq, b.length ≤ s.params.M → ∃ r : Response s.params.W s.params.M,
      Answers (.frombytes b) s r ∧ (r.status = 0 ∨ r.status = 2) ∧ (r.status = 0 ↔ AllValid b)) ∧
    (∀ (b : ByteSeq) (n : Nat), b.length ≤ s.params.M → n ≤ s.params.M → ∃ r : Response s.params.W s.params.M,
      Answers (.frombytesn b n) s r ∧ (r.status = 0 ∨ r.status = 2) ∧ (r.status = 0 ↔ AllValid b))

/-- R135 with R26 and R131: every well-formed instruction answers, with one of three statuses; a failure carries no
result, a success no error field. (It is also the completion of all nine instructions, R160.) -/
def Obligations.WellFormedInstructionsAnswerAllOrNothing : Prop :=
  ∀ (s : State) (i : Instr), i.wellFormed s.params.W s.params.M = true →
    ∃ r : Response s.params.W s.params.M, Answers i s r ∧ r.legal

/-- An instruction that no port of the instance can carry, or that R63 does not admit, is refused, and never as an
instruction without a meaning. (The names are the model's, notes/assumptions/5.md.) -/
def Obligations.IllFormedInstructionsAreRefused : Prop :=
  ∀ (s : State) (i : Instr), i.wellFormed s.params.W s.params.M = false →
    ∃ ρ, exec i s = .refused ρ ∧
      ((∃ v, ρ = .integerAbovePort v ∧ 2 ^ s.params.W ≤ v) ∨
        (∃ n, ρ = .countAboveCapacity n ∧ s.params.M < n) ∨ ∃ l, ρ = .lengthAboveCapacity l ∧ s.params.M < l)

/-- R44: the same request gets the same response whatever the block held before, whatever else is on its ports, and
(R156) whatever its latency; and it has no side effect on anything but its own response, `Answers` being the whole
change. -/
def Obligations.ResponseDependsOnTheRequestAlone : Prop :=
  ∀ (s : State) (i : Instr) (r : Response s.params.W s.params.M), Answers i s r →
    ∀ (lat : Nat) (inputs : Inputs s.params.W s.params.M) (later : List (Inputs s.params.W s.params.M))
      (pending : List (Option (Response s.params.W s.params.M))) (rsp : Option (Response s.params.W s.params.M))
      (free : Nat),
      Answers i
        { params := { s.params with LAT := lat }, inputs := inputs, later := later, pending := pending, rsp := rsp,
          free := free } r

/-! ### The signal-level wrapper -/

/-- R30 and R150, on the instance of `Config.build` (the model's choice, notes/assumptions/1.md): after reset nothing is
pending, `rsp_valid` is 0, and the invariant holds. -/
def Obligations.ResetMeetsTheInvariant : Prop :=
  State.reset.Inv ∧ State.reset.rspValid = false ∧ (∀ x ∈ State.reset.pending, x = none)

/-- An edge with `rst = 0` and `req_valid = 1` runs the decoded instruction: the step is `exec` of it, then the edge's
own work, which is to present the oldest slot and to move the requester's signals on (R157). A refusal of `exec` would be
the step's (statement EveryEdgeGivesANextState says that a decoded instruction gets none). -/
def Obligations.StepRunsTheDecodedInstruction : Prop :=
  ∀ (s : State) (i : Instr), s.inputs.rst = false → s.inputs.reqValid = true → decode s.inputs.req = .ok i →
    (∀ t, exec i s = .next t → step s = .next t.finishEdge) ∧
    (∀ ρ, exec i s = .refused ρ → step s = .refused ρ) ∧
    ∀ r, Answers i s r → ∃ t, step s = .next t ∧ EdgeGives s t (some r)

/-- R157: an edge with `rst = 0` and `req_valid = 0` accepts nothing and ignores the request fields. -/
def Obligations.EdgeWithoutARequestAcceptsNothing : Prop :=
  ∀ (s : State) (req : Request s.params.W s.params.M), s.inputs.rst = false → s.inputs.reqValid = false →
    ∃ t, step s = .next t ∧ EdgeGives s t none ∧
      step { s with inputs := { s.inputs with req := req } } = .next t

/-- R150: an edge with `rst = 1` ignores `req_valid` and the request fields, discards every pending response and puts
`rsp_valid` to 0; the parameters stay. -/
def Obligations.ResetEdgeDiscardsEverythingPending : Prop :=
  ∀ s : State, s.inputs.rst = true →
    step s = .next
      { s with
        inputs := s.later.headD (Inputs.idle s.params.W s.params.M)
        later := s.later.tail
        pending := List.replicate s.params.LAT none
        rsp := none }

/-- R63, R141 and R157 at the ports: an edge that accepts a well-formed request answers it; one that accepts a malformed
request goes on, leaves the free value of that request in its own slot (that it falls there and nowhere else is read as
notes/assumptions/7.md says) and touches no other slot; and an edge that accepts no request goes on as well. -/
def Obligations.MalformedRequestsDisturbNoOtherResponse : Prop :=
  ∀ s : State,
    (s.inputs.rst = false → s.inputs.reqValid = true → wellFormedRequest s.inputs.req = true →
      ∃ (t : State) (r : Response s.params.W s.params.M), step s = .next t ∧ r.legal ∧ EdgeGives s t (some r)) ∧
    (s.inputs.rst = false → s.inputs.reqValid = true → wellFormedRequest s.inputs.req = false →
      ∃ t, step s = .next t ∧
        EdgeGives { s with free := s.free + 1 } t (Config.malformedSlot s.params.W s.params.M s.inputs.req s.free)) ∧
    (s.inputs.quiet → ∃ t, step s = .next t ∧ t.free = s.free)

/-- R5: no step changes the parameters. -/
def Obligations.StepKeepsTheParameters : Prop :=
  ∀ s t : State, step s = .next t → t.params = s.params

/-- The invariant of the machine is kept by every step, from every state that meets it: exactly `LAT` slots pending
(R28), and no pending or presented response with a fourth status, with a result beside a failure, with an error field
beside a success, or with an output sequence outside its length (R26, R131, R132, R133, R135, R25), unless it is what the
block presents for a malformed request, which is unspecified (R157). -/
def Obligations.EveryStepKeepsTheInvariant : Prop :=
  ∀ s t : State, s.Inv → step s = .next t → t.Inv

/-- R157 at `LAT = 0` (read as notes/assumptions/9.md says): the response signals after an edge are `exec` of the request
at that edge, and `rsp_valid = req_valid and not rst` on every edge that accepts no malformed request. -/
def Obligations.ZeroLatencyAnswersOnTheSameEdge : Prop :=
  ∀ s t : State, s.params.LAT = 0 → s.Inv → step s = .next t →
    (s.inputs.rst = true ∨ s.inputs.calm → t.rspValid = (s.inputs.reqValid && !s.inputs.rst)) ∧
    ∀ (i : Instr) (r : Response s.params.W s.params.M), s.inputs.rst = false → s.inputs.reqValid = true →
      decode s.inputs.req = .ok i → Answers i s r →
        t = { s with
              inputs := s.later.headD (Inputs.idle s.params.W s.params.M)
              later := s.later.tail
              pending := []
              rsp := some r }

/-- R157 (edges counted as notes/assumptions/9.md says): when an edge accepts a well-formed request, exactly `LAT` edges
later the block presents its response, if no edge on the way resets it, whatever requests, malformed ones too, come
before and after it; when an edge accepts no request, exactly `LAT` edges later `rsp_valid` is 0; and when it accepts a
malformed one, that request's own free value stands there (notes/assumptions/7.md). So responses come in the order of
their requests, one each, none dropped and none disturbed (R45, R46). -/
def Obligations.ResponseComesExactlyLatEdgesLater : Prop :=
  ∀ s : State, s.pending.length = s.params.LAT → (∀ x ∈ s.later.take s.params.LAT, x.rst = false) →
    s.inputs.rst = false →
    (∀ (i : Instr) (r : Response s.params.W s.params.M), s.inputs.reqValid = true → decode s.inputs.req = .ok i →
      Answers i s r → PresentedAfterLat s (some r)) ∧
    (s.inputs.reqValid = false → PresentedAfterLat s none) ∧
    (s.inputs.reqValid = true → wellFormedRequest s.inputs.req = false →
      PresentedAfterLat s (Config.malformedSlot s.params.W s.params.M s.inputs.req s.free))

/-- R150: requests accepted before a reset and not yet answered never get a response: after an edge with `rst = 1`,
`rsp_valid` stays 0 for as long as the edges accept nothing. -/
def Obligations.NothingPendingSurvivesAReset : Prop :=
  ∀ (s : State) (k : Nat), s.inputs.rst = true → (∀ x ∈ s.later.take k, x.quiet) →
    ∃ (inputs : Inputs s.params.W s.params.M) (later : List (Inputs s.params.W s.params.M)),
      Sys2Proof.core.run (k + 1) s =
        .next { s with
                inputs := inputs
                later := later
                pending := List.replicate s.params.LAT none
                rsp := none }

/-- R160 with R157: every edge, whatever the requester drives and whatever the block holds, ends in a next state; no
request hangs the block and none stops it. -/
def Obligations.EveryEdgeGivesANextState : Prop :=
  ∀ s : State, ∃ t, step s = .next t

/-- The stronger invariant of a block whose requester keeps to R159, obligation 1: from a state in which every response
pending or presented is legal (R26, R131, R132, R133, R135, R25), an edge that resets the block or puts no malformed
request to it leads to such a state. -/
def Obligations.WellFormedInputsKeepEveryResponseLegal : Prop :=
  ∀ s t : State, s.AllLegal → (s.inputs.rst = true ∨ s.inputs.calm) → step s = .next t → t.AllLegal

/-- R45 and R46 (R45 is marked derived; edges counted as notes/assumptions/9.md says): the response to a well-formed
request is the same whatever requests, malformed ones too, were issued before it (`pending`, `free`) and whatever is
issued after it (`later`, without a reset in the way): in any such surroundings the block presents, `LAT` edges later,
the one response that `exec` gives the decoded request. -/
def Obligations.OtherRequestsChangeNoResponse : Prop :=
  ∀ s : State, s.inputs.rst = false → s.inputs.reqValid = true → wellFormedRequest s.inputs.req = true →
    ∃ (i : Instr) (r : Response s.params.W s.params.M),
      decode s.inputs.req = .ok i ∧ Answers i s r ∧ r.legal ∧
      ∀ (later : List (Inputs s.params.W s.params.M)) (pending : List (Option (Response s.params.W s.params.M)))
        (rsp : Option (Response s.params.W s.params.M)) (free : Nat),
        pending.length = s.params.LAT → (∀ x ∈ later.take s.params.LAT, x.rst = false) →
          PresentedAfterLat { s with later := later, pending := pending, rsp := rsp, free := free } (some r)
end

