-- ==== Sys2Proof/Laws/Numbers.lean ====
section
/-! SUPPORT. What the functions on naturals compute: powers of ten as powers of a hundred, the count of decimal digits,
the minimal byte count, and the search for the largest fitting byte count. -/

namespace Sys2Proof.Machine

/-- `10^(2n)` is `100^n`, the form in which digit pairs are counted. -/
theorem ten_pow_double (n : Nat) : 10 ^ (2 * n) = 100 ^ n := by
  norm_num [pow_mul]

/-- The bound check of R91, without subtraction. -/
theorem le_maxval_iff (v n : Nat) : v ≤ maxval n ↔ v < 100 ^ n := by
  have := Nat.one_le_pow n 100 (by decide)
  unfold maxval
  rw [ten_pow_double]
  omega

theorem maxval_lt_iff (v n : Nat) : maxval n < v ↔ 100 ^ n ≤ v := by
  have := le_maxval_iff v n
  omega

/-- The search finds a fitting count, and none in its range is larger. -/
theorem largestFit_spec (bound : Nat) (h : 1 ≤ bound) (m : Nat) :
    10 ^ (2 * largestFit bound m) ≤ bound ∧ ∀ k, k ≤ m → 10 ^ (2 * k) ≤ bound → k ≤ largestFit bound m := by
  induction m with
  | zero => exact ⟨by simpa [largestFit] using h, fun k hk _ => hk⟩
  | succ m ih =>
    unfold largestFit
    split
    · rename_i hfit
      exact ⟨hfit, fun k hk _ => hk⟩
    · rename_i hfit
      refine ⟨ih.1, fun k hk hb => ih.2 k ?_ hb⟩
      rcases Nat.lt_or_ge k (m + 1) with hlt | hge
      · omega
      · exact absurd ((Nat.le_antisymm hk hge) ▸ hb) hfit

/-- `K(W)` bytes fit in `W` bits. -/
theorem hundred_pow_bytesThatFit_le (W : Nat) : 100 ^ bytesThatFit W ≤ 2 ^ W := by
  rw [← ten_pow_double]
  exact (largestFit_spec (2 ^ W) Nat.one_le_two_pow W).1

/-- With enough turns, the digit count `d` of a positive `v` satisfies `10^(d-1) <= v < 10^d`. -/
theorem countDigits_bounds (fuel v : Nat) (h : v ≤ fuel) (hv : 1 ≤ v) :
    1 ≤ countDigits fuel v ∧ 10 ^ (countDigits fuel v - 1) ≤ v ∧ v < 10 ^ countDigits fuel v := by
  induction fuel generalizing v with
  | zero => omega
  | succ fuel ih =>
    unfold countDigits
    split
    · rename_i hlt
      exact ⟨le_rfl, by simpa using hv, by simpa using hlt⟩
    · rename_i hge
      obtain ⟨h1, h2, h3⟩ := ih (v / 10) (by omega) (by omega)
      obtain ⟨d, hd⟩ : ∃ d, countDigits fuel (v / 10) = d + 1 := ⟨_, (Nat.sub_add_cancel h1).symm⟩
      rw [hd] at h2 h3 ⊢
      refine ⟨by omega, ?_, ?_⟩
      · rw [show 1 + (d + 1) - 1 = d + 1 by omega, pow_succ]
        simp only [Nat.add_sub_cancel] at h2
        omega
      · rw [show 1 + (d + 1) = (d + 1) + 1 by omega, pow_succ]
        omega

theorem ndigits_bounds (v : Nat) (hv : 1 ≤ v) :
    1 ≤ ndigits v ∧ 10 ^ (ndigits v - 1) ≤ v ∧ v < 10 ^ ndigits v :=
  countDigits_bounds v v le_rfl hv

@[simp] theorem ndigits_zero : ndigits 0 = 1 := rfl

@[simp] theorem minlen_zero : minlen 0 = 1 := rfl

theorem one_le_minlen (v : Nat) : 1 ≤ minlen v := Nat.le_max_left 1 _

/-- `minlen(v)` bytes hold `v` (R97). -/
theorem lt_hundred_pow_minlen (v : Nat) : v < 100 ^ minlen v := by
  rcases Nat.eq_zero_or_pos v with rfl | hv
  · decide
  · obtain ⟨h1, _, h3⟩ := ndigits_bounds v hv
    rw [← ten_pow_double]
    refine h3.trans_le (Nat.pow_le_pow_right (by decide) ?_)
    unfold minlen ceilDiv
    omega

/-- Fewer than `minlen(v)` bytes, but at least one, do not hold `v`. -/
theorem hundred_pow_pred_minlen_le (v : Nat) (hv : 1 ≤ v) : 100 ^ (minlen v - 1) ≤ v := by
  obtain ⟨h1, h2, _⟩ := ndigits_bounds v hv
  rw [← ten_pow_double]
  refine (Nat.pow_le_pow_right (by decide) ?_).trans h2
  unfold minlen ceilDiv
  omega

/-- `minlen` is the least byte count, from one on, that holds the value. -/
theorem minlen_le_of_lt (v n : Nat) (hn : 1 ≤ n) (h : v < 100 ^ n) : minlen v ≤ n := by
  rcases Nat.eq_zero_or_pos v with rfl | hv
  · simpa using hn
  · by_contra hlt
    have hle : 100 ^ n ≤ 100 ^ (minlen v - 1) := Nat.pow_le_pow_right (by decide) (by omega)
    have := hundred_pow_pred_minlen_le v hv
    omega

/-- Every length up to `M` fits a port of `LW` bits (R6). -/
theorem lt_two_pow_lengthWidth (M n : Nat) (h : n ≤ M) : n < 2 ^ lengthWidth M :=
  h.trans_lt Nat.lt_log2_self

@[simp] theorem toNat_length_port (M n : Nat) (h : n ≤ M) : (BitVec.ofNat (lengthWidth M) n).toNat = n := by
  rw [BitVec.toNat_ofNat, Nat.mod_eq_of_lt (lt_two_pow_lengthWidth M n h)]

end Sys2Proof.Machine
end

