-- ==== Sys2Proof/Laws/Bytes.lean ====
section
/-! SUPPORT. Nibbles and digit pairs as arithmetic on naturals (R75 to R80). -/

namespace Sys2Proof.Machine

theorem hi_toNat (b : Byte) : (hi b).toNat = b.toNat / 16 := by
  have := b.isLt
  simp [hi, BitVec.extractLsb'_toNat, Nat.shiftRight_eq_div_pow]
  omega

theorem lo_toNat (b : Byte) : (lo b).toNat = b.toNat % 16 := by
  simp [lo, BitVec.extractLsb'_toNat]

theorem packNibbles_toNat (t o : Nibble) : (packNibbles t o).toNat = 16 * t.toNat + o.toNat := by
  revert t o
  decide

theorem validByte_iff (b : Byte) : validByte b = true ↔ b.toNat / 16 ≤ 9 ∧ b.toNat % 16 ≤ 9 := by
  simp [validByte, hi_toNat, lo_toNat]

/-- A packed byte is valid exactly when both of its digits are. -/
theorem validByte_packNibbles (t o : Nibble) :
    validByte (packNibbles t o) = true ↔ t.toNat ≤ 9 ∧ o.toNat ≤ 9 := by
  have := o.isLt
  rw [validByte_iff, packNibbles_toNat]
  omega

theorem unpackValue_of_valid (b : Byte) (h : validByte b = true) :
    unpackValue b = some (10 * (b.toNat / 16) + b.toNat % 16) := by
  simp [unpackValue, h, hi_toNat, lo_toNat]

theorem unpackValue_of_invalid (b : Byte) (h : validByte b = false) : unpackValue b = none := by
  simp [unpackValue, h]

theorem pairByte_toNat (dp : Nat) (h : dp < 100) : (pairByte dp).toNat = 16 * (dp / 10) + dp % 10 := by
  simp only [pairByte, packNibbles_toNat, BitVec.toNat_ofNat]
  omega

theorem validByte_pairByte (dp : Nat) (h : dp < 100) : validByte (pairByte dp) = true := by
  rw [validByte_iff, pairByte_toNat dp h]
  omega

/-- Packing a digit pair and unpacking it gives it back. -/
theorem unpackValue_pairByte (dp : Nat) (h : dp < 100) : unpackValue (pairByte dp) = some dp := by
  rw [unpackValue_of_valid _ (validByte_pairByte dp h), pairByte_toNat dp h]
  simp
  omega

@[simp] theorem pairByte_zero : pairByte 0 = 0 := by decide

end Sys2Proof.Machine
end

