-- ==== Sys2Proof/Laws/Sequences.lean ====
section
/-! SUPPORT. Byte sequences as numbers: on a sequence port in base 256 (R25), and as the integer they represent in base
100 (R41). -/

namespace Sys2Proof.Machine

/-- A big-endian positional sum, one digit split off at the front. -/
theorem positional_cons (f : Byte → Nat) (B : Nat) (x : Byte) (b : ByteSeq) :
    ∑ i ∈ Finset.range (x :: b).length, f ((x :: b).getD i 0) * B ^ ((x :: b).length - 1 - i) =
      f x * B ^ b.length + ∑ i ∈ Finset.range b.length, f (b.getD i 0) * B ^ (b.length - 1 - i) := by
  rw [List.length_cons, Finset.sum_range_succ', Nat.add_comm]
  congr 1
  refine Finset.sum_congr rfl fun i _ => ?_
  rw [List.getD_cons_succ]
  congr 2
  omega

/-- The Horner form of a big-endian positional sum, from any start. -/
theorem positional_foldl (f : Byte → Nat) (B : Nat) (b : ByteSeq) (a : Nat) :
    b.foldl (fun acc x => acc * B + f x) a =
      a * B ^ b.length + ∑ i ∈ Finset.range b.length, f (b.getD i 0) * B ^ (b.length - 1 - i) := by
  induction b generalizing a with
  | nil => simp
  | cons x b ih =>
    rw [positional_cons, List.foldl_cons, ih, List.length_cons, pow_succ]
    ring

/-- A big-endian positional sum stays below `B^len` when its digits stay below `B`. -/
theorem positional_lt (f : Byte → Nat) (B : Nat) (b : ByteSeq) (h : ∀ x ∈ b, f x < B) :
    ∑ i ∈ Finset.range b.length, f (b.getD i 0) * B ^ (b.length - 1 - i) < B ^ b.length := by
  induction b with
  | nil => simp
  | cons x b ih =>
    rw [positional_cons, List.length_cons, pow_succ]
    have h1 := h x List.mem_cons_self
    have h2 := ih fun y hy => h y (List.mem_cons_of_mem _ hy)
    nlinarith [Nat.mul_le_mul_right (B ^ b.length) (Nat.succ_le_of_lt h1)]

/-! ### The port, base 256 -/

theorem seqNat_eq_portSum (b : ByteSeq) : seqNat b = portSum b := by
  rw [seqNat, positional_foldl BitVec.toNat, portSum]
  simp

@[simp] theorem portSum_nil : portSum [] = 0 := rfl

theorem portSum_cons (x : Byte) (b : ByteSeq) :
    portSum (x :: b) = x.toNat * 256 ^ b.length + portSum b :=
  positional_cons BitVec.toNat 256 x b

theorem portSum_append (a b : ByteSeq) : portSum (a ++ b) = portSum a * 256 ^ b.length + portSum b := by
  induction a with
  | nil => simp
  | cons x a ih =>
    rw [List.cons_append, portSum_cons, portSum_cons, ih, List.length_append, pow_add]
    ring

theorem portSum_lt (b : ByteSeq) : portSum b < 256 ^ b.length :=
  positional_lt BitVec.toNat 256 b fun x _ => x.isLt

@[simp] theorem portSum_zeros (n : Nat) : portSum (List.replicate n 0) = 0 := by
  induction n with
  | zero => rfl
  | succ n ih => rw [List.replicate_succ, portSum_cons, ih]; simp

theorem two_pow_eight_mul (n : Nat) : 2 ^ (8 * n) = 256 ^ n := by
  norm_num [pow_mul]

/-- A sequence no longer than the port loses nothing on it. -/
theorem toNat_seqToPort (M : Nat) (b : ByteSeq) (h : b.length ≤ M) : (seqToPort M b).toNat = portSum b := by
  rw [seqToPort, BitVec.toNat_ofNat, two_pow_eight_mul, seqNat_eq_portSum, Nat.mod_eq_of_lt]
  exact (portSum_lt b).trans_le (Nat.pow_le_pow_right (by decide) h)

/-- Base-256 digit `i` of a port value is byte `i` of the sequence. -/
theorem portSum_digit (b : ByteSeq) (i : Nat) (h : i < b.length) :
    portSum b / 256 ^ (b.length - 1 - i) % 256 = (b.getD i 0).toNat := by
  induction b generalizing i with
  | nil => simp at h
  | cons x b ih =>
    rw [portSum_cons]
    cases i with
    | zero =>
      have := x.isLt
      rw [List.length_cons, Nat.add_sub_cancel, Nat.sub_zero, Nat.add_comm,
        Nat.add_mul_div_right _ _ (by positivity), Nat.div_eq_of_lt (portSum_lt b), List.getD_cons_zero]
      omega
    | succ i =>
      rw [List.length_cons] at h
      rw [List.length_cons, List.getD_cons_succ, ← ih i (by omega),
        show b.length + 1 - 1 - (i + 1) = b.length - 1 - i by omega]
      obtain ⟨d, hd⟩ : ∃ d, b.length = (b.length - 1 - i) + (d + 1) := ⟨i, by omega⟩
      conv_lhs => rw [hd, pow_add, show b.length - 1 - i + (d + 1) - 1 - i = b.length - 1 - i by omega]
      rw [show x.toNat * (256 ^ (b.length - 1 - i) * 256 ^ (d + 1)) + portSum b =
          portSum b + (x.toNat * 256 ^ d * 256) * 256 ^ (b.length - 1 - i) by ring,
        Nat.add_mul_div_right _ _ (by positivity), Nat.add_mul_mod_self_right]

@[simp] theorem length_seqOfPort {w : Nat} (p : BitVec w) (L : Nat) : (seqOfPort p L).length = L := by
  simp [seqOfPort]

theorem getElem_seqOfPort {w : Nat} (p : BitVec w) (L i : Nat) (h : i < (seqOfPort p L).length) :
    (seqOfPort p L)[i] = p.extractLsb' (8 * (L - 1 - i)) 8 := by
  simp [seqOfPort]

/-- A sequence is read back from any port whose low `8 * len` bits carry it. -/
theorem seqOfPort_of_low_bits {w : Nat} (p : BitVec w) (b : ByteSeq) (h : p.toNat % 256 ^ b.length = portSum b) :
    seqOfPort p b.length = b := by
  refine List.ext_getElem (by simp) fun i h1 h2 => ?_
  apply BitVec.eq_of_toNat_eq
  have hi : i < b.length := h2
  rw [getElem_seqOfPort, BitVec.extractLsb'_toNat, Nat.shiftRight_eq_div_pow, two_pow_eight_mul]
  have := portSum_digit b i hi
  rw [List.getD_eq_getElem _ _ hi, ← h] at this
  rw [← this]
  obtain ⟨d, hd⟩ : ∃ d, b.length = (b.length - 1 - i) + 1 + d := ⟨i, by omega⟩
  have hp : (256 : Nat) ^ b.length = 256 ^ (b.length - 1 - i) * (256 * 256 ^ d) := by
    conv_lhs => rw [hd, pow_add, pow_succ]
    ring
  rw [hp, Nat.mod_mul_right_div_self, Nat.mod_mul_right_mod]

/-- The encoder's port is read back whole. -/
@[simp] theorem seqOfPort_seqToPort (M : Nat) (b : ByteSeq) (h : b.length ≤ M) :
    seqOfPort (seqToPort M b) b.length = b := by
  apply seqOfPort_of_low_bits
  rw [toNat_seqToPort M b h, Nat.mod_eq_of_lt (portSum_lt b)]

/-! ### The represented integer, base 100 -/

@[simp] theorem represents_nil : represents [] = 0 := rfl

theorem represents_cons (x : Byte) (b : ByteSeq) :
    represents (x :: b) = (10 * (x.toNat / 16) + x.toNat % 16) * 100 ^ b.length + represents b :=
  positional_cons (fun y => 10 * (y.toNat / 16) + y.toNat % 16) 100 x b

theorem represents_append (a b : ByteSeq) : represents (a ++ b) = represents a * 100 ^ b.length + represents b := by
  induction a with
  | nil => simp
  | cons x a ih =>
    rw [List.cons_append, represents_cons, represents_cons, ih, List.length_append, pow_add]
    ring

/-- A valid sequence of `n` bytes represents at most `100^n - 1` (R6, R108). -/
theorem represents_lt (b : ByteSeq) (h : AllValid b) : represents b < 100 ^ b.length :=
  positional_lt (fun y => 10 * (y.toNat / 16) + y.toNat % 16) 100 b fun x hx => by
    have := h x hx
    change 10 * (x.toNat / 16) + x.toNat % 16 < 100
    omega

@[simp] theorem represents_zeros (n : Nat) : represents (List.replicate n 0) = 0 := by
  induction n with
  | zero => rfl
  | succ n ih => rw [List.replicate_succ, represents_cons, ih]; simp

theorem allValid_nil : AllValid [] := fun _ h => absurd h List.not_mem_nil

theorem allValid_zeros (n : Nat) : AllValid (List.replicate n 0) := by
  intro x hx
  obtain ⟨_, rfl⟩ := List.mem_replicate.1 hx
  decide

theorem allValid_append (a b : ByteSeq) : AllValid (a ++ b) ↔ AllValid a ∧ AllValid b :=
  List.forall_mem_append

theorem allValid_cons (x : Byte) (b : ByteSeq) :
    AllValid (x :: b) ↔ (x.toNat / 16 ≤ 9 ∧ x.toNat % 16 ≤ 9) ∧ AllValid b := by
  simp [AllValid]

theorem allValid_drop (b : ByteSeq) (n : Nat) (h : AllValid b) : AllValid (b.drop n) :=
  fun x hx => h x (List.mem_of_mem_drop hx)

/-! ### The loops of the rules -/

/-- The validation loop finds nothing exactly in a valid sequence. -/
theorem firstInvalid_eq_none (b : ByteSeq) : firstInvalid b = none ↔ AllValid b := by
  simp only [firstInvalid, List.findIdx?_eq_none_iff, AllValid, ← validByte_iff, Bool.not_eq_false']

/-- The validation loop finds the least index of an invalid byte. -/
theorem firstInvalid_eq_some (b : ByteSeq) (i : Nat) : firstInvalid b = some i ↔ FirstBadFrom b 0 i := by
  simp only [firstInvalid, List.findIdx?_eq_some_iff_getElem, FirstBadFrom, ← validByte_iff]
  constructor
  · rintro ⟨h, hb, hlt⟩
    refine ⟨Nat.zero_le _, h, by rw [List.getD_eq_getElem _ _ h]; simpa using hb, fun j _ hj => ?_⟩
    have := hlt j hj
    rw [List.getD_eq_getElem _ _ (hj.trans h)]
    simpa using this
  · rintro ⟨-, h, hb, hlt⟩
    rw [List.getD_eq_getElem _ _ h] at hb
    refine ⟨h, by simpa using hb, fun j hj => ?_⟩
    have := hlt j (Nat.zero_le _) hj
    rw [List.getD_eq_getElem _ _ (hj.trans h)] at this
    simpa using this

/-- The fold over valid bytes appends their digits to the accumulator. -/
theorem foldPairs_of_allValid (b : ByteSeq) (h : AllValid b) (i acc : Nat) :
    foldPairs i acc b = .ok (acc * 100 ^ b.length + represents b) := by
  induction b generalizing i acc with
  | nil => simp [foldPairs]
  | cons x b ih =>
    rw [allValid_cons] at h
    have hx := unpackValue_of_valid x ((validByte_iff x).2 h.1)
    simp only [foldPairs, hx, ih h.2, represents_cons, List.length_cons, pow_succ]
    congr 1
    ring

/-- A fold that succeeds has met valid bytes only. -/
theorem allValid_of_foldPairs (b : ByteSeq) (i acc v : Nat) (h : foldPairs i acc b = .ok v) : AllValid b := by
  induction b generalizing i acc with
  | nil => exact allValid_nil
  | cons x b ih =>
    rw [allValid_cons]
    cases hx : validByte x with
    | false => simp [foldPairs, unpackValue_of_invalid x hx] at h
    | true =>
      rw [foldPairs, unpackValue_of_valid x hx] at h
      exact ⟨(validByte_iff x).1 hx, ih _ _ h⟩

/-- The fold stops at the first invalid byte, with its index in the whole sequence. -/
theorem foldPairs_of_firstBad (b : ByteSeq) (i acc j : Nat) (h : FirstBadFrom b 0 j) :
    foldPairs i acc b = .error (i + j) := by
  induction b generalizing i acc j with
  | nil => exact absurd h.2.1 (Nat.not_lt_zero _)
  | cons x b ih =>
    obtain ⟨-, hlen, hbad, hgood⟩ := h
    cases j with
    | zero =>
      have hx : validByte x = false := by
        rw [← Bool.not_eq_true, validByte_iff]
        simpa using hbad
      simp [foldPairs, unpackValue_of_invalid x hx]
    | succ j =>
      have hx : validByte x = true := (validByte_iff x).2 (by simpa using hgood 0 le_rfl (Nat.succ_pos _))
      have hrest : FirstBadFrom b 0 j :=
        ⟨Nat.zero_le _, by simpa using hlen, by simpa using hbad,
          fun k _ hk => by simpa using hgood (k + 1) (Nat.zero_le _) (by omega)⟩
      rw [foldPairs, unpackValue_of_valid x hx]
      simp only [ih _ _ _ hrest]
      congr 1
      omega

@[simp] theorem length_last (b : ByteSeq) (k : Nat) (h : k ≤ b.length) : (last b k).length = k := by
  rw [last, List.length_drop]
  omega

@[simp] theorem length_truncateOrPad (b : ByteSeq) (n : Nat) : (truncateOrPad b n).length = n := by
  unfold truncateOrPad
  split
  · assumption
  · split
    · exact length_last b n (by omega)
    · rw [List.length_append, zeros, List.length_replicate]
      omega

/-- With enough turns, the encoder's loop gives base-100 digit `i` at place `i`, and zero above the last. -/
theorem getD_pushPairs (fuel x i : Nat) (h : x ≤ fuel) :
    (pushPairs fuel x).getD i 0 = pairByte (x / 100 ^ i % 100) := by
  induction fuel generalizing x i with
  | zero =>
    obtain rfl : x = 0 := by omega
    simp [pushPairs]
  | succ fuel ih =>
    unfold pushPairs
    split
    · rename_i hx
      subst hx
      simp
    · cases i with
      | zero => simp
      | succ i =>
        rw [List.getD_cons_succ, ih (x / 100) i (by omega), pow_succ, Nat.mul_comm, Nat.div_div_eq_div_mul]

/-- The loop runs at most `n` times on a value below `100^n` (R93). -/
theorem length_pushPairs_le (fuel x n : Nat) (h : x < 100 ^ n) : (pushPairs fuel x).length ≤ n := by
  induction fuel generalizing x n with
  | zero => simp [pushPairs]
  | succ fuel ih =>
    unfold pushPairs
    split
    · simp
    · rename_i hx
      cases n with
      | zero => simp at h; omega
      | succ n =>
        rw [List.length_cons]
        exact Nat.succ_le_succ (ih (x / 100) n (by rw [pow_succ] at h; omega))

/-- The encoder's sequence has exactly the length asked for. -/
theorem length_encodeSeq (v n : Nat) (h : v < 100 ^ n) : (encodeSeq v n).length = n := by
  have := length_pushPairs_le v v n h
  simp only [encodeSeq, zeros, List.length_reverse, List.length_append, List.length_replicate]
  omega

end Sys2Proof.Machine
end

