-- ==== Sys2Proof/Laws/State.lean ====
section
/-! SUPPORT. One lemma per field per update of the state, true by rfl, so that no later proof unfolds a record
update. -/

namespace Sys2Proof.Machine

variable (s : State) (r : Response s.params.W s.params.M)

@[simp] theorem State.accept_params : (s.accept r).params = s.params := rfl
@[simp] theorem State.accept_inputs : (s.accept r).inputs = s.inputs := rfl
@[simp] theorem State.accept_later : (s.accept r).later = s.later := rfl
@[simp] theorem State.accept_pending : (s.accept r).pending = s.pending ++ [some r] := rfl
@[simp] theorem State.accept_rsp : (s.accept r).rsp = s.rsp := rfl
@[simp] theorem State.accept_free : (s.accept r).free = s.free := rfl

@[simp] theorem State.acceptNothing_params : s.acceptNothing.params = s.params := rfl
@[simp] theorem State.acceptNothing_inputs : s.acceptNothing.inputs = s.inputs := rfl
@[simp] theorem State.acceptNothing_later : s.acceptNothing.later = s.later := rfl
@[simp] theorem State.acceptNothing_pending : s.acceptNothing.pending = s.pending ++ [none] := rfl
@[simp] theorem State.acceptNothing_rsp : s.acceptNothing.rsp = s.rsp := rfl
@[simp] theorem State.acceptNothing_free : s.acceptNothing.free = s.free := rfl

@[simp] theorem State.acceptMalformed_params : s.acceptMalformed.params = s.params := rfl
@[simp] theorem State.acceptMalformed_inputs : s.acceptMalformed.inputs = s.inputs := rfl
@[simp] theorem State.acceptMalformed_later : s.acceptMalformed.later = s.later := rfl
@[simp] theorem State.acceptMalformed_pending : s.acceptMalformed.pending =
    s.pending ++ [Config.malformedSlot s.params.W s.params.M s.inputs.req s.free] := rfl
@[simp] theorem State.acceptMalformed_rsp : s.acceptMalformed.rsp = s.rsp := rfl
@[simp] theorem State.acceptMalformed_free : s.acceptMalformed.free = s.free + 1 := rfl

@[simp] theorem State.present_params : s.present.params = s.params := rfl
@[simp] theorem State.present_inputs : s.present.inputs = s.inputs := rfl
@[simp] theorem State.present_later : s.present.later = s.later := rfl
@[simp] theorem State.present_pending : s.present.pending = s.pending.tail := rfl
@[simp] theorem State.present_rsp : s.present.rsp = s.pending.headD none := rfl
@[simp] theorem State.present_free : s.present.free = s.free := rfl

@[simp] theorem State.withRequest_params (q : Request s.params.W s.params.M) :
    (s.withRequest q).params = s.params := rfl
@[simp] theorem State.withRequest_inputs (q : Request s.params.W s.params.M) :
    (s.withRequest q).inputs = ⟨false, true, q⟩ := rfl
@[simp] theorem State.withRequest_later (q : Request s.params.W s.params.M) :
    (s.withRequest q).later = s.later := rfl
@[simp] theorem State.withRequest_pending (q : Request s.params.W s.params.M) :
    (s.withRequest q).pending = s.pending := rfl
@[simp] theorem State.withRequest_rsp (q : Request s.params.W s.params.M) : (s.withRequest q).rsp = s.rsp := rfl
@[simp] theorem State.withRequest_free (q : Request s.params.W s.params.M) : (s.withRequest q).free = s.free := rfl

/-- The requester's move to the next edge, written as one record update. -/
theorem State.nextInputs_eq :
    s.nextInputs = { s with
      inputs := s.later.headD (Inputs.idle s.params.W s.params.M)
      later := s.later.tail } := by
  unfold State.nextInputs
  split <;> rename_i h <;> simp [h]

@[simp] theorem State.nextInputs_params : s.nextInputs.params = s.params := by rw [State.nextInputs_eq]
@[simp] theorem State.nextInputs_free : s.nextInputs.free = s.free := by rw [State.nextInputs_eq]

/-- The end of an edge, written as one record update. -/
theorem State.finishEdge_eq :
    s.finishEdge = { s with
      inputs := s.later.headD (Inputs.idle s.params.W s.params.M)
      later := s.later.tail
      pending := s.pending.tail
      rsp := s.pending.headD none } := by
  unfold State.finishEdge
  rw [State.nextInputs_eq]
  rfl

@[simp] theorem State.finishEdge_params : s.finishEdge.params = s.params := by rw [State.finishEdge_eq]
@[simp] theorem State.finishEdge_free : s.finishEdge.free = s.free := by rw [State.finishEdge_eq]

/-- A reset edge, written as one record update. -/
theorem State.resetEdge_eq :
    s.resetEdge = { s with
      inputs := s.later.headD (Inputs.idle s.params.W s.params.M)
      later := s.later.tail
      pending := List.replicate s.params.LAT none
      rsp := none } := by
  unfold State.resetEdge
  rw [State.nextInputs_eq]

@[simp] theorem State.resetEdge_params : s.resetEdge.params = s.params := by rw [State.resetEdge_eq]
@[simp] theorem State.resetEdge_free : s.resetEdge.free = s.free := by rw [State.resetEdge_eq]

end Sys2Proof.Machine
end

