-- ==== Sys2Proof/Laws/Ops.lean ====
section
/-! SUPPORT. For each shared operation one lemma that says everything it can do: the operand checks, the three ways of
giving a response, and the legality of each of them. -/

namespace Sys2Proof.Machine

/-! ### Operand checks -/

@[simp] theorem requireCount_of_le {n : Nat} {s : State} (h : n ≤ s.params.M) (k : Host.Outcome State Fault Refusal) :
    requireCount n s k = k := by
  simp [requireCount, h]

theorem requireCount_of_lt {n : Nat} {s : State} (h : s.params.M < n) (k : Host.Outcome State Fault Refusal) :
    requireCount n s k = .refused (.countAboveCapacity n) := by
  simp [requireCount, Nat.not_le.2 h]

@[simp] theorem requireSeq_of_le {b : ByteSeq} {s : State} (h : b.length ≤ s.params.M)
    (k : Host.Outcome State Fault Refusal) : requireSeq b s k = k := by
  simp [requireSeq, h]

theorem requireSeq_of_lt {b : ByteSeq} {s : State} (h : s.params.M < b.length)
    (k : Host.Outcome State Fault Refusal) : requireSeq b s k = .refused (.lengthAboveCapacity b.length) := by
  simp [requireSeq, Nat.not_le.2 h]

@[simp] theorem requireInteger_of_lt {v : Nat} {s : State} (h : v < 2 ^ s.params.W)
    (k : Host.Outcome State Fault Refusal) : requireInteger v s k = k := by
  simp [requireInteger, h]

theorem requireInteger_of_le {v : Nat} {s : State} (h : 2 ^ s.params.W ≤ v)
    (k : Host.Outcome State Fault Refusal) : requireInteger v s k = .refused (.integerAbovePort v) := by
  simp [requireInteger, Nat.not_lt.2 h]

/-! ### The ways of giving a response -/

theorem answers_iff (i : Instr) (s : State) (r : Response s.params.W s.params.M) :
    Answers i s r ↔ exec i s = reply s r :=
  Iff.rfl

theorem replySeq_eq (s : State) (b : ByteSeq) : replySeq s b = reply s (okSeq s.params.W s.params.M b) := by
  rw [replySeq, okSeq, seqToPort, seqNat_eq_portSum]
  rfl

theorem raise_overflow_eq (v max : Nat) (s : State) :
    raiseFailure (.overflow v max) s = reply s (overflowed s.params.W s.params.M v max) := rfl

theorem raise_invalidFormat_eq (i : Nat) (s : State) :
    raiseFailure (.invalidFormat i) s = reply s (badFormat s.params.W s.params.M i) := rfl

/-! ### Legality of the responses -/

variable {W M : Nat}

theorem zero_ne_one_status : (0 : BitVec 2) ≠ 1 := by decide
theorem zero_ne_two_status : (0 : BitVec 2) ≠ 2 := by decide
theorem one_ne_two_status : (1 : BitVec 2) ≠ 2 := by decide

theorem okSeq_lenOut (b : ByteSeq) (h : b.length ≤ M) : (okSeq W M b).lenOut.toNat = b.length :=
  toNat_length_port M b.length h

theorem okSeq_seqOut (b : ByteSeq) (h : b.length ≤ M) : (okSeq W M b).seqOut.toNat = portSum b := by
  have := toNat_seqToPort M b h
  rwa [seqToPort, seqNat_eq_portSum] at this

theorem okSeq_legal (b : ByteSeq) (h : b.length ≤ M) : (okSeq W M b).legal := by
  refine ⟨.inl rfl, fun h0 => absurd rfl h0, fun _ => ⟨rfl, rfl⟩, fun _ => rfl, fun h1 => absurd h1 zero_ne_one_status,
    fun h2 => absurd h2 zero_ne_two_status, ?_, ?_⟩
  · rw [okSeq_lenOut b h]
    exact h
  · rw [okSeq_lenOut b h, okSeq_seqOut b h]
    exact portSum_lt b

theorem overflowed_errValue {v max : Nat} (hv : v < 2 ^ W) : (overflowed W M v max).errValue.toNat = v := by
  simp [overflowed, Nat.mod_eq_of_lt hv]

theorem overflowed_errMax {v max : Nat} (hv : v < 2 ^ W) (h : max < v) :
    (overflowed W M v max).errMax.toNat = max := by
  simp [overflowed, Nat.mod_eq_of_lt (h.trans hv)]

theorem overflowed_legal {v max : Nat} (hv : v < 2 ^ W) (h : max < v) : (overflowed W M v max).legal := by
  refine ⟨.inr (.inl rfl), fun _ => ⟨rfl, rfl, rfl, rfl, rfl, rfl, rfl, rfl⟩, fun h1 => absurd rfl h1, fun _ => rfl,
    fun _ => ?_, fun h2 => absurd h2 one_ne_two_status, ?_, ?_⟩
  · rw [overflowed_errValue hv, overflowed_errMax hv h]
    exact h
  · simp [overflowed, Response.zero]
  · simp [overflowed, Response.zero]

theorem badFormat_errIndex {i : Nat} (h : i ≤ M) : (badFormat W M i).errIndex.toNat = i :=
  toNat_length_port M i h

theorem badFormat_legal {i : Nat} (h : i < M) : (badFormat W M i).legal := by
  refine ⟨.inr (.inr rfl), fun _ => ⟨rfl, rfl, rfl, rfl, rfl, rfl, rfl, rfl⟩, fun _ => ⟨rfl, rfl⟩,
    fun h2 => absurd rfl h2, fun h1 => absurd h1.symm one_ne_two_status, fun _ => ?_, ?_, ?_⟩
  · rw [badFormat_errIndex h.le]
    exact h
  · simp [badFormat, Response.zero]
  · simp [badFormat, Response.zero]

/-- A response with status OK, no output sequence and no error field is legal. -/
theorem plain_legal (r : Response W M) (h : r.status = 0) (h1 : r.seqOut = 0) (h2 : r.lenOut = 0) (h3 : r.errValue = 0)
    (h4 : r.errMax = 0) (h5 : r.errIndex = 0) : r.legal := by
  simp [Response.legal, h, h1, h2, h3, h4, h5]

end Sys2Proof.Machine
end

