-- ==== Sys2Proof/Laws/Encoding.lean ====
section
/-! SUPPORT. The op code table and the decoder (R57, R60, R63): the table is unambiguous and complete, and the decoder's
two operand readers say everything they can do. -/

namespace Sys2Proof

/-- No value of `op` is selected by two rows of the table. -/
theorem opTable_rows_disjoint :
    opTable.Pairwise fun a b => ∀ c : BitVec 4, ¬(c &&& a.mask = a.code ∧ c &&& b.mask = b.code) := by
  decide

@[simp] theorem decodeOp_encodeOp (o : Op) : decodeOp (encodeOp o) = some o := by
  cases o <;> decide

/-- The table's code is the only one that selects an operation. -/
theorem eq_encodeOp_of_decodeOp (c : BitVec 4) (o : Op) (h : decodeOp c = some o) : c = encodeOp o := by
  revert c o
  decide +revert

variable {W M : Nat} (r : Request W M)

theorem withSeq_of_le (h : r.lenIn.toNat ≤ M) (k : ByteSeq → Except DecodeError Instr) :
    withSeq r k = k (seqOfPort r.seqIn r.lenIn.toNat) := by
  simp [withSeq, h]

theorem withSeq_of_lt (h : M < r.lenIn.toNat) (k : ByteSeq → Except DecodeError Instr) :
    withSeq r k = .error (.lengthAboveCapacity r.lenIn.toNat) := by
  simp [withSeq, Nat.not_le.2 h]

theorem withCount_of_le (h : r.nIn.toNat ≤ M) (k : Nat → Except DecodeError Instr) :
    withCount r k = k r.nIn.toNat := by
  simp [withCount, h]

theorem withCount_of_lt (h : M < r.nIn.toNat) (k : Nat → Except DecodeError Instr) :
    withCount r k = .error (.countAboveCapacity r.nIn.toNat) := by
  simp [withCount, Nat.not_le.2 h]

/-- An instruction comes out of `withSeq` only through its continuation. -/
theorem withSeq_eq_ok {k : ByteSeq → Except DecodeError Instr} {i : Instr} (h : withSeq r k = .ok i) :
    r.lenIn.toNat ≤ M ∧ k (seqOfPort r.seqIn r.lenIn.toNat) = .ok i := by
  unfold withSeq at h
  split at h
  · exact ⟨‹_›, h⟩
  · cases h

/-- An instruction comes out of `withCount` only through its continuation. -/
theorem withCount_eq_ok {k : Nat → Except DecodeError Instr} {i : Instr} (h : withCount r k = .ok i) :
    r.nIn.toNat ≤ M ∧ k r.nIn.toNat = .ok i := by
  unfold withCount at h
  split at h
  · exact ⟨‹_›, h⟩
  · cases h

end Sys2Proof
end

