-- ==== Sys2Proof/Laws/Exec.lean ====
section
/-! SUPPORT. What `exec` can do, said once: it replies with a legal response or refuses; and what `step` can do: a reset
edge, an edge that accepts nothing, one that runs the decoded instruction, or one that accepts a malformed request. -/

namespace Sys2Proof.Machine

/-- One of the two ends of an operation: a legal reply, or a refusal. -/
def EndsWell (s : State) (o : Host.Outcome State Fault Refusal) : Prop :=
  (∃ r : Response s.params.W s.params.M, r.legal ∧ o = reply s r) ∨ ∃ ρ, o = .refused ρ

theorem EndsWell.of_reply {s : State} {r : Response s.params.W s.params.M} (h : r.legal) : EndsWell s (reply s r) :=
  .inl ⟨r, h, rfl⟩

theorem EndsWell.requireCount {s : State} {n : Nat} {k : Host.Outcome State Fault Refusal}
    (h : n ≤ s.params.M → EndsWell s k) : EndsWell s (requireCount n s k) := by
  rcases Nat.lt_or_ge s.params.M n with hlt | hle
  · exact .inr ⟨_, requireCount_of_lt hlt k⟩
  · rw [requireCount_of_le hle]
    exact h hle

theorem EndsWell.requireSeq {s : State} {b : ByteSeq} {k : Host.Outcome State Fault Refusal}
    (h : b.length ≤ s.params.M → EndsWell s k) : EndsWell s (requireSeq b s k) := by
  rcases Nat.lt_or_ge s.params.M b.length with hlt | hle
  · exact .inr ⟨_, requireSeq_of_lt hlt k⟩
  · rw [requireSeq_of_le hle]
    exact h hle

theorem EndsWell.requireInteger {s : State} {v : Nat} {k : Host.Outcome State Fault Refusal}
    (h : v < 2 ^ s.params.W → EndsWell s k) : EndsWell s (requireInteger v s k) := by
  rcases Nat.lt_or_ge v (2 ^ s.params.W) with hlt | hle
  · rw [requireInteger_of_lt hlt]
    exact h hlt
  · exact .inr ⟨_, requireInteger_of_le hle k⟩

theorem EndsWell.replySeq {s : State} {b : ByteSeq} (h : b.length ≤ s.params.M) : EndsWell s (replySeq s b) := by
  rw [replySeq_eq]
  exact .of_reply (okSeq_legal b h)

theorem EndsWell.overflow {s : State} {v max : Nat} (hv : v < 2 ^ s.params.W) (h : max < v) :
    EndsWell s (raiseFailure (.overflow v max) s) :=
  .of_reply (overflowed_legal hv h)

theorem EndsWell.invalidFormat {s : State} {i : Nat} (h : i < s.params.M) :
    EndsWell s (raiseFailure (.invalidFormat i) s) :=
  .of_reply (badFormat_legal h)

/-- The fold stops only at an index inside the bytes it runs over. -/
theorem foldPairs_error_lt (b : ByteSeq) (i acc j : Nat) (h : foldPairs i acc b = .error j) : j < i + b.length := by
  induction b generalizing i acc with
  | nil => simp [foldPairs] at h
  | cons x b ih =>
    rw [foldPairs] at h
    rw [List.length_cons]
    split at h
    · simp only [Except.error.injEq] at h
      omega
    · have := ih _ _ h
      omega

/-- Every instruction, in every state: a legal reply, or a refusal. -/
theorem exec_endsWell (i : Instr) (s : State) : EndsWell s (exec i s) := by
  cases i with
  | pack t o => exact .of_reply (plain_legal _ rfl rfl rfl rfl rfl rfl)
  | unpack b => exact .of_reply (plain_legal _ rfl rfl rfl rfl rfl rfl)
  | validate b => exact .of_reply (plain_legal _ rfl rfl rfl rfl rfl rfl)
  | encode v n =>
    refine .requireInteger fun hv => .requireCount fun hn => ?_
    split
    · rename_i h
      exact .overflow hv h
    · rename_i h
      have hlt := (le_maxval_iff v n).1 (Nat.le_of_not_lt h)
      exact .replySeq ((length_encodeSeq v n hlt).trans_le hn)
  | encmin v =>
    refine .requireInteger fun hv => ?_
    split
    · rename_i h
      exact .overflow hv h
    · rename_i h
      have hlt := (le_maxval_iff v _).1 (Nat.le_of_not_lt h)
      exact .replySeq ((length_encodeSeq v _ (lt_hundred_pow_minlen v)).trans_le
        (minlen_le_of_lt v _ s.params.hM hlt))
  | decode b =>
    refine .requireSeq fun hb => ?_
    split
    · rename_i j h
      have := foldPairs_error_lt _ _ _ _ h
      have hk : consumed s.params.W b.length ≤ b.length := Nat.min_le_left _ _
      rw [length_last b _ hk] at this
      exact .invalidFormat (by omega)
    · exact .of_reply (plain_legal _ rfl rfl rfl rfl rfl rfl)
  | resize b n =>
    exact .requireSeq fun _ => .requireCount fun hn => .replySeq ((length_truncateOrPad b n).trans_le hn)
  | frombytes b =>
    refine .requireSeq fun hb => ?_
    split
    · rename_i j h
      have := ((firstInvalid_eq_some b j).1 h).2.1
      exact .invalidFormat (by omega)
    · exact .replySeq hb
  | frombytesn b n =>
    refine .requireSeq fun hb => .requireCount fun hn => ?_
    split
    · rename_i j h
      have := ((firstInvalid_eq_some b j).1 h).2.1
      exact .invalidFormat (by omega)
    · exact .replySeq ((length_truncateOrPad b n).trans_le hn)

/-- What a next state of `exec` is: the state with one legal response more pending. -/
theorem exec_eq_next {i : Instr} {s t : State} (h : exec i s = .next t) :
    ∃ r : Response s.params.W s.params.M, r.legal ∧ t = s.accept r ∧ Answers i s r := by
  rcases exec_endsWell i s with ⟨r, hr, he⟩ | ⟨ρ, he⟩
  · rw [he, reply, Host.Outcome.next.injEq] at h
    exact ⟨r, hr, h.symm, he⟩
  · rw [he] at h
    cases h

/-- What a next state of `step` is: the end of a reset edge, of an edge that accepts nothing, of one that accepts the
decoded instruction, or of one that accepts a malformed request. -/
theorem step_eq_next {s t : State} (h : step s = .next t) :
    (s.inputs.rst = true ∧ t = s.resetEdge) ∨
    (s.inputs.rst = false ∧ s.inputs.reqValid = false ∧ t = s.acceptNothing.finishEdge) ∨
    (s.inputs.rst = false ∧ s.inputs.reqValid = true ∧ ∃ (i : Instr) (r : Response s.params.W s.params.M),
      decode s.inputs.req = .ok i ∧ Answers i s r ∧ r.legal ∧ t = (s.accept r).finishEdge) ∨
    (s.inputs.rst = false ∧ s.inputs.reqValid = true ∧ (∃ e, decode s.inputs.req = .error e) ∧
      t = s.acceptMalformed.finishEdge) := by
  unfold step at h
  split at h
  · rename_i hr
    exact .inl ⟨hr, (Host.Outcome.next.inj h).symm⟩
  · rename_i hr
    have hr : s.inputs.rst = false := by simpa using hr
    split at h
    · rename_i hv
      split at h
      · rename_i e he
        exact .inr (.inr (.inr ⟨hr, hv, ⟨e, he⟩, (Host.Outcome.next.inj h).symm⟩))
      · rename_i i hi
        split at h
        · rename_i u hu
          obtain ⟨r, hlegal, rfl, hans⟩ := exec_eq_next hu
          exact .inr (.inr (.inl ⟨hr, hv, i, r, hi, hans, hlegal, (Host.Outcome.next.inj h).symm⟩))
        · cases h
        · cases h
    · rename_i hv
      exact .inr (.inl ⟨hr, by simpa using hv, (Host.Outcome.next.inj h).symm⟩)

end Sys2Proof.Machine
end

