-- ==== Sys2Proof/Laws/PerInstr.lean ====
section
/-! SUPPORT. Statements about every instruction as syntax, one lemma per constructor: the `op` port of an encoded
instruction selects its operation (R57). -/

namespace Sys2Proof.Laws.OpPort

/-- Whatever the instance, the encoded instruction's `op` port selects the instruction's own operation. -/
def Statement (i : Instr) : Prop := ∀ W M, decodeOp (encode W M i).op = some i.op

theorem pack (tens ones : Nibble) : Statement (.pack tens ones) := fun _ _ => decodeOp_encodeOp _
theorem unpack (b : Byte) : Statement (.unpack b) := fun _ _ => decodeOp_encodeOp _
theorem validate (b : Byte) : Statement (.validate b) := fun _ _ => decodeOp_encodeOp _
theorem encode (v n : Nat) : Statement (.encode v n) := fun _ _ => decodeOp_encodeOp _
theorem encmin (v : Nat) : Statement (.encmin v) := fun _ _ => decodeOp_encodeOp _
theorem decode (s : ByteSeq) : Statement (.decode s) := fun _ _ => decodeOp_encodeOp _
theorem resize (s : ByteSeq) (n : Nat) : Statement (.resize s n) := fun _ _ => decodeOp_encodeOp _
theorem frombytes (s : ByteSeq) : Statement (.frombytes s) := fun _ _ => decodeOp_encodeOp _
theorem frombytesn (s : ByteSeq) (n : Nat) : Statement (.frombytesn s n) := fun _ _ => decodeOp_encodeOp _

end Sys2Proof.Laws.OpPort
end

