-- ==== Sys2Proof/Tests/Slice0.lean ====
section
/-! SUPPORT. The model's own tests. Every expected value is copied from the spec (95_test_vectors.md, the corner cases of
the operation rules, or the tables of 00_scope.md and 30_encoding.md), never computed by the model. After them stand the
witnesses: for each statement with hypotheses, concrete values that meet them, at the boundaries of its clauses. -/

namespace Sys2Proof.Machine.Tests

/-! ### Helpers -/

/-- A block out of reset with the given parameters. -/
def blockOf (P : Params) : State :=
  { params := P, inputs := Inputs.idle P.W P.M, later := [], pending := List.replicate P.LAT none, rsp := none,
    free := 0 }

/-- The configuration of 95_test_vectors.md section 4. -/
def cfg : State := blockOf { W := 16, M := 4, LAT := 0 }

/-- The configuration of program 4 (`M + 1` is not a power of two). -/
def cfg8 : State := blockOf { W := 8, M := 2, LAT := 0 }

/-- The twelve fields of a response in the order of R24. -/
def fields {W M : Nat} (r : Response W M) : List Nat :=
  [r.status.toNat, r.byteOut.toNat, r.tensOut.toNat, r.onesOut.toNat, r.validOut.toNat, r.seqOut.toNat, r.lenOut.toNat,
    r.binOut.toNat, r.lossy.toNat, r.errValue.toNat, r.errMax.toNat, r.errIndex.toNat]

/-- The fields of the youngest pending response of a next state. -/
def youngest : Host.Outcome State Fault Refusal → Option (List Nat)
  | .next t => t.pending.getLast?.join.map fields
  | .fault _ => none
  | .refused _ => none

/-- The fields presented after an outcome. -/
def presented : Host.Outcome State Fault Refusal → Option (List Nat)
  | .next t => t.rsp.map fields
  | .fault _ => none
  | .refused _ => none

/-- The refusal of an outcome, if it is one. -/
def refusal : Host.Outcome State Fault Refusal → Option Refusal
  | .next _ => none
  | .fault _ => none
  | .refused ρ => some ρ

/-- A request of the section 4 configuration, in the order of R23. -/
def req (op : BitVec 4) (t o : Nibble) (b : Byte) (v : BitVec 16) (n : BitVec 3) (s : BitVec 32) (l : BitVec 3) :
    Request 16 4 :=
  { op := op, tensIn := t, onesIn := o, byteIn := b, binIn := v, nIn := n, seqIn := s, lenIn := l }

/-! ### Well-formedness: an ill-formed term for each check, refused (R63, R23) -/

theorem test_wf_integer_above_port : (Instr.encode 65536 2).wellFormed 16 4 = false := by decide
theorem test_wf_integer_at_port : (Instr.encode 65535 4).wellFormed 16 4 = true := by decide
theorem test_wf_count_above_capacity : (Instr.encode 0 3).wellFormed 8 2 = false := by decide
theorem test_wf_encmin_integer : (Instr.encmin 256).wellFormed 8 2 = false := by decide
theorem test_wf_decode_length : (Instr.decode [0, 0, 0]).wellFormed 8 2 = false := by decide
theorem test_wf_resize_length : (Instr.resize [0, 0, 0] 1).wellFormed 8 2 = false := by decide
theorem test_wf_resize_count : (Instr.resize [0x12] 3).wellFormed 8 2 = false := by decide
theorem test_wf_frombytes_length : (Instr.frombytes [0, 0, 0]).wellFormed 8 2 = false := by decide
theorem test_wf_frombytesn_length : (Instr.frombytesn [0, 0, 0] 1).wellFormed 8 2 = false := by decide
theorem test_wf_frombytesn_count : (Instr.frombytesn [0x12] 3).wellFormed 8 2 = false := by decide

/-! ### Decoding: every operation's request, its ports written out (R57, R64, 95_test_vectors.md section 4) -/

theorem test_decode_pack : decode (req 0x0 4 5 0 0 0 0 0) = .ok (.pack 4 5) := rfl
theorem test_decode_unpack : decode (req 0x1 0 0 0x45 0 0 0 0) = .ok (.unpack 0x45) := rfl
theorem test_decode_validate : decode (req 0x2 0 0 0x45 0 0 0 0) = .ok (.validate 0x45) := rfl
theorem test_decode_encode : decode (req 0x4 0 0 0 0x04D2 2 0 0) = .ok (.encode 1234 2) := rfl
theorem test_decode_encmin : decode (req 0x5 0 0 0 0x3039 7 0 0) = .ok (.encmin 12345) := rfl
theorem test_decode_decode : decode (req 0x8 0 0 0 0 0 0xFFFF1234 2) = .ok (.decode [0x12, 0x34]) := rfl
theorem test_decode_resize : decode (req 0xC 0 0 0 0 1 0x00001234 2) = .ok (.resize [0x12, 0x34] 1) := rfl
theorem test_decode_frombytes : decode (req 0xD 0 0 0 0 7 0x000012A4 2) = .ok (.frombytes [0x12, 0xA4]) := rfl
theorem test_decode_frombytesn : decode (req 0xE 0 0 0 0 3 0x00001204 2) = .ok (.frombytesn [0x12, 0x04] 3) := rfl
theorem test_decode_reserved : decode (req 0x3 4 5 0 0 0 0 0) = .error (.reservedOp 0x3) := rfl
theorem test_decode_length_above : decode (req 0x8 0 0 0 0 0 0 5) = .error (.lengthAboveCapacity 5) := rfl
theorem test_decode_count_above : decode (req 0x4 0 0 0 0 5 0 0) = .error (.countAboveCapacity 5) := rfl
theorem test_table_word_encode : decodeTableWord 8 0x4 = some (.encode 0 0) := rfl
theorem test_table_word_reserved : decodeTableWord 8 0xF = none := rfl

/-! ### Meanings: at most two per instruction (95_test_vectors.md) -/

/-- G7: digits above 9 give the formula's byte, with no failure. -/
theorem test_pack_fifteen : youngest (exec (.pack 15 15) cfg) = some [0, 0xFF, 0, 0, 0, 0, 0, 0, 0, 0, 0, 0] := by decide
/-- G4: the tens digit is the high nibble. -/
theorem test_pack_order : youngest (exec (.pack 0 9) cfg) = some [0, 0x09, 0, 0, 0, 0, 0, 0, 0, 0, 0, 0] := by decide
/-- G11. -/
theorem test_unpack_invalid : youngest (exec (.unpack 0x0A) cfg) = some [0, 0, 0, 10, 0, 0, 0, 0, 0, 0, 0, 0] := by
  decide
/-- G8. -/
theorem test_unpack_45 : youngest (exec (.unpack 0x45) cfg) = some [0, 0, 4, 5, 0, 0, 0, 0, 0, 0, 0, 0] := by decide
/-- G16: the high nibble's boundary. -/
theorem test_validate_a9 : youngest (exec (.validate 0xA9) cfg) = some [0, 0, 0, 0, 0, 0, 0, 0, 0, 0, 0, 0] := by decide
/-- G14. -/
theorem test_validate_99 : youngest (exec (.validate 0x99) cfg) = some [0, 0, 0, 0, 1, 0, 0, 0, 0, 0, 0, 0] := by decide
/-- E18: the bound is exact, not computed in 8 bits. -/
theorem test_encode_exact_bound :
    youngest (exec (.encode 255 2) cfg8) = some [0, 0, 0, 0, 0, 0x0255, 2, 0, 0, 0, 0, 0] := by decide
/-- E26: `err_max = 10^18 - 1` on a 64-bit instance. -/
theorem test_encode_overflow :
    youngest (exec (.encode 18446744073709551615 9) (blockOf { W := 64, M := 10, LAT := 0 })) =
      some [1, 0, 0, 0, 0, 0, 0, 0, 0, 18446744073709551615, 999999999999999999, 0] := by decide
/-- M1: one byte, not empty. -/
theorem test_encmin_zero : youngest (exec (.encmin 0) cfg) = some [0, 0, 0, 0, 0, 0, 1, 0, 0, 0, 0, 0] := by decide
/-- M13: the capacity overflows. -/
theorem test_encmin_capacity :
    youngest (exec (.encmin 10000) (blockOf { W := 16, M := 2, LAT := 0 })) =
      some [1, 0, 0, 0, 0, 0, 0, 0, 0, 10000, 9999, 0] := by decide
/-- X13: the invalid leading byte is not consumed and not validated. -/
theorem test_decode_drops_invalid :
    youngest (exec (.decode [0xAF, 0x12, 0x34]) cfg) = some [0, 0, 0, 0, 0, 0, 0, 1234, 1, 0, 0, 0] := by decide
/-- X14: the index is in the whole sequence. -/
theorem test_decode_index :
    youngest (exec (.decode [0x12, 0xAF, 0x34]) cfg) = some [2, 0, 0, 0, 0, 0, 0, 0, 0, 0, 0, 1] := by decide
/-- Z9: the low-order bytes stay. -/
theorem test_resize_drops :
    youngest (exec (.resize [0x01, 0x23, 0x45] 2) cfg) = some [0, 0, 0, 0, 0, 0x2345, 2, 0, 0, 0, 0, 0] := by decide
/-- Z11: an invalid byte is kept without failure, behind the padding. -/
theorem test_resize_keeps_invalid :
    youngest (exec (.resize [0xAF] 2) cfg) = some [0, 0, 0, 0, 0, 0x00AF, 2, 0, 0, 0, 0, 0] := by decide
/-- F6: the first invalid byte wins. -/
theorem test_frombytes_first :
    youngest (exec (.frombytes [0xF0, 0x0A]) cfg) = some [2, 0, 0, 0, 0, 0, 0, 0, 0, 0, 0, 0] := by decide
/-- F8: a leading zero byte stays. -/
theorem test_frombytes_verbatim :
    youngest (exec (.frombytes [0x00, 0x12]) cfg) = some [0, 0, 0, 0, 0, 0x0012, 2, 0, 0, 0, 0, 0] := by decide
/-- N5: validation holds in the padding arm too. -/
theorem test_frombytesn_pads_validated :
    youngest (exec (.frombytesn [0x12, 0x3F] 4) cfg) = some [2, 0, 0, 0, 0, 0, 0, 0, 0, 0, 0, 1] := by decide
/-- N2. -/
theorem test_frombytesn_cuts :
    youngest (exec (.frombytesn [0x12, 0x34] 1) cfg) = some [0, 0, 0, 0, 0, 0x34, 1, 0, 0, 0, 0, 0] := by decide

/-! ### Steps -/

/-- Row 2 of section 4, through the ports. -/
theorem test_step_overflow :
    presented (step (cfg.withRequest (req 0x4 0 0 0 0x0064 1 0 0))) = some [1, 0, 0, 0, 0, 0, 0, 0, 0, 100, 99, 0] := by
  decide
/-- Row 5 of section 4, through the ports. -/
theorem test_step_invalid_format :
    presented (step (cfg.withRequest (req 0x8 0 0 0 0 0 0x0012AF34 3))) =
      some [2, 0, 0, 0, 0, 0, 0, 0, 0, 0, 0, 1] := by decide
/-- Latency 1, a response pending, and a request with the reserved code `0x3` (Q1) on the ports. -/
def disturbed : State :=
  { blockOf { W := 16, M := 4, LAT := 1 } with
    inputs := { rst := false, reqValid := true, req := req 0x3 0 0 0 0 0 0 0 }
    pending := [some { Response.zero 16 4 with byteOut := 0x45 }] }

/-- Q1 with R157: the malformed request gets no meaning, and the response pending before it is presented. -/
theorem test_step_reserved : presented (step disturbed) = some [0, 0x45, 0, 0, 0, 0, 0, 0, 0, 0, 0, 0] := by decide
/-- Q3: `n_in = 3 > M = 2`; the block goes on. -/
theorem test_step_count :
    (match step (cfg8.withRequest
        { op := 0x4, tensIn := 0, onesIn := 0, byteIn := 0, binIn := 0, nIn := 3, seqIn := 0, lenIn := 0 }) with
      | .next t => t.free
      | _ => 0) = 1 := by decide
/-- The host's word for ENCODE runs as the first instruction after reset: `ENCODE 0, 0 -> OK []` (E5). -/
theorem test_step_after_reset :
    presented (step (State.reset.withFetchWord 8 0x4)) = some [0, 0, 0, 0, 0, 0, 0, 0, 0, 0, 0, 0] := by decide

/-! ### Listings (R64) -/

theorem test_listing_request : instrText (.resize [0x12, 0x3A] 1) = "RESIZE [0x12, 0x3A], 1" := by decide
theorem test_listing_response : responseText .encode (overflowed 16 4 100 99) = some "-> OVERFLOW(100, 99)" := by decide

/-! ### Witnesses -/

theorem witness_DecodeOfEncodeIsTheInstruction :
    (Instr.encode 65535 4).wellFormed 16 4 = true ∧ (Instr.frombytesn [0x12, 0xA4, 0, 0xFF] 4).wellFormed 16 4 = true ∧
    (Instr.decode []).wellFormed 16 4 = true := by decide

theorem witness_EncodeOfDecodeAgreesOnFieldsRead :
    decode (req 0x8 0 0 0 0 0 0xFFFF1234 2) = .ok (.decode [0x12, 0x34]) := rfl

theorem witness_FieldsNotReadAreIgnored :
    decodeOp (req 0x8 0 0 0 0 0 0 0).op = some .decode ∧
    AgreeOnRead .decode (req 0x8 1 2 3 4 5 0xFFFF0000 0) (req 0x8 0 0 0 0 0 0 0) := by
  refine ⟨rfl, rfl, ?_, ?_, ?_, ?_, fun _ => ⟨rfl, fun k hk => absurd hk (Nat.not_lt_zero k)⟩⟩ <;> exact nofun

theorem witness_RequestIsExecutedIffWellFormed :
    (1 ≤ 3 ∧ ({ Request.zero 16 3 with op := 0xE } : Request 16 3).op ∈
      ([0x0, 0x1, 0x2, 0x4, 0x5, 0x8, 0xC, 0xD, 0xE] : List (BitVec 4)) ∧ 3 + 1 = 2 ^ 2) ∧
    decode (cfg.withRequest (req 0x4 0 0 0 0x0064 1 0 0)).inputs.req = .ok (.encode 100 1) := ⟨by decide, rfl⟩

theorem witness_RejectedRequestsAreNamed :
    decodeOp (req 0x3 0 0 0 0 0 0 0).op = none ∧
    (decodeOp (req 0xC 0 0 0 0 5 0 5).op = some .resize ∧ 4 < (req 0xC 0 0 0 0 5 0 5).lenIn.toNat) ∧
    (decodeOp (req 0xC 0 0 0 0 5 0 4).op = some .resize ∧ 4 < (req 0xC 0 0 0 0 5 0 4).nIn.toNat ∧
      (req 0xC 0 0 0 0 5 0 4).lenIn.toNat ≤ 4) := by decide

theorem witness_DerivedConstantsAreAsDefined : 10 ^ (2 * 2) ≤ 2 ^ 14 ∧ 1 ≤ 1 := by decide

theorem witness_MinimalLengthIsLeast :
    (1 ≤ 2 ∧ 100 ≤ 10 ^ (2 * 2) - 1) ∧ (1 ≤ 100 ∧ 1 ≤ 2) ∧ (100 ^ (2 - 1) ≤ 100 ∧ 100 < 100 ^ 2) := by decide

theorem witness_OverflowIsPossibleExactlyBelowNmin :
    (nmin 16 ≤ 3 ∧ 65535 < 2 ^ 16) ∧ (1 ≤ 16 ∧ 2 < nmin 16) := by decide

theorem witness_HelperFunctionsFollowTheirFormulas : 99 ≤ 99 ∧ 0 ≤ 99 := by decide

theorem witness_CodecLawsHold :
    99 ≤ 99 ∧ validByte 0x99 = true ∧ unpackValue 0x09 = some 9 ∧ unpackValue 0x10 = some 10 := by decide

theorem witness_PackGivesTheByteOfItsDigits : (req 0x0 4 5 0 0 0 0 0).op = 0x0 := rfl

theorem witness_UnpackGivesTheNibblesOfItsByte :
    (req 0x1 0 0 0x45 0 0 0 0).op = 0x1 ∧ (0x45 : Byte).toNat = 16 * (4 : Nibble).toNat + (5 : Nibble).toNat := by decide

theorem witness_ValidateTellsWhetherBothNibblesAreDigits : (req 0x2 0 0 0x45 0 0 0 0).op = 0x2 := rfl

theorem witness_EncodeRunsTheDivisionLoopOrOverflows :
    ((req 0x4 0 0 0 0 4 0 0).op = 0x4 ∧ (req 0x4 0 0 0 0 4 0 0).nIn.toNat ≤ 4) ∧
    (9999 < 2 ^ cfg.params.W ∧ 2 ≤ cfg.params.M ∧ 9999 ≤ 10 ^ (2 * 2) - 1) ∧
    (0 < 2 ^ cfg.params.W ∧ 0 ≤ cfg.params.M ∧ 0 ≤ 10 ^ (2 * 0) - 1) ∧
    (10000 < 2 ^ cfg.params.W ∧ 2 ≤ cfg.params.M ∧ 10 ^ (2 * 2) - 1 < 10000) := by decide

theorem witness_EncodeHasItsClosedForm :
    (9999 < 2 ^ cfg.params.W ∧ 2 ≤ cfg.params.M ∧ 9999 ≤ 10 ^ (2 * 2) - 1 ∧ 1 < 2) ∧
    (0 < 2 ^ cfg.params.W ∧ 0 ≤ cfg.params.M ∧ 0 ≤ 10 ^ (2 * 0) - 1) := by decide

theorem witness_EncoderLoopIsBounded :
    (1 ≤ 100 ∧ 1 ≤ 2 ∧ 100 ^ (2 - 1) ≤ 100 ∧ 100 < 100 ^ 2) ∧ 9999 ≤ 10 ^ (2 * 2) - 1 ∧ 65535 < 2 ^ 16 := by decide

theorem witness_EncodeOverflowBoundary :
    (2 ≤ cfg.params.M ∧ 10 ^ (2 * 2) < 2 ^ cfg.params.W) ∧ (0 ≤ cfg.params.M ∧ 10 ^ (2 * 0) - 1 < 2 ^ cfg.params.W) := by
  decide

theorem witness_EncminIsEncodeAtTheMinimalLength :
    (req 0x5 0 0 0 0 7 0 0).op = 0x5 ∧
    (65535 < 2 ^ cfg.params.W ∧ 65535 ≤ 10 ^ (2 * cfg.params.M) - 1) ∧
    (10000 < 2 ^ (blockOf { W := 16, M := 2, LAT := 0 }).params.W ∧
      10 ^ (2 * (blockOf { W := 16, M := 2, LAT := 0 }).params.M) - 1 < 10000) := by decide

theorem witness_EncoderOutputIsValidAndRepresentsItsInput :
    9999 < 2 ^ cfg.params.W ∧ 2 ≤ cfg.params.M ∧ 9999 ≤ 10 ^ (2 * 2) - 1 ∧ 9999 ≤ 10 ^ (2 * cfg.params.M) - 1 := by
  decide

theorem witness_EncodingsOfOneValueDifferByZeroPadding :
    9999 < 2 ^ cfg.params.W ∧ 2 ≤ cfg.params.M ∧ 9999 ≤ 10 ^ (2 * 2) - 1 ∧ 2 < 4 ∧ 4 ≤ cfg.params.M ∧
      minlen 9999 ≤ 2 := by decide

theorem witness_EncodeIsStrictlyIncreasing :
    9998 < 9999 ∧ 9999 < 2 ^ cfg.params.W ∧ 2 ≤ cfg.params.M ∧ 9999 ≤ 10 ^ (2 * 2) - 1 := by decide

theorem witness_AliasesExpandAsStated :
    (1 ≤ bytesThatFit (blockOf { W := 7, M := 1, LAT := 0 }).params.W ∧ unpackValue 0x45 = some 45) ∧
    (1 ≤ bytesThatFit cfg.params.W ∧ unpackValue 0x9A = none) ∧
    (99 < 2 ^ cfg.params.W ∧ 99 ≤ 99) ∧ (100 < 2 ^ cfg.params.W ∧ 99 < 100) := by decide

/-- The valid clause at a lossy length, and the invalid clause at the first and at the last consumed byte. -/
theorem witness_DecodeFoldsTheTrailingBytesThatFit :
    ((req 0x8 0 0 0 0 0 0 4).op = 0x8 ∧ (req 0x8 0 0 0 0 0 0 4).lenIn.toNat ≤ 4) ∧
    ([0xAF, 0x12, 0x34] : ByteSeq).length ≤ cfg.params.M ∧
    AllValid (([0xAF, 0x12, 0x34] : ByteSeq).drop (3 - min 3 (bytesThatFit cfg.params.W))) ∧
    FirstBadFrom [0x12, 0xAF, 0x34] (3 - min 3 (bytesThatFit cfg.params.W)) 1 ∧
    FirstBadFrom [0xAF, 0x12, 0x3A] (3 - min 3 (bytesThatFit cfg.params.W)) 2 := by
  have hK : bytesThatFit cfg.params.W = 2 := by decide
  refine ⟨by decide, by decide, by rw [hK]; unfold AllValid; decide, ?_, ?_⟩ <;> rw [hK]
  · exact ⟨by decide, by decide, by decide, fun j h1 h2 => absurd h2 (by omega)⟩
  · refine ⟨by decide, by decide, by decide, fun j h1 h2 => ?_⟩
    obtain rfl : j = 1 := by omega
    decide

theorem witness_SequencesLieRightJustified :
    (0 < 2 ∧ 7 < 8) ∧ ([0x12, 0x34] : ByteSeq).length ≤ 4 ∧
    (0xFFFF1234 : BitVec (8 * 4)).toNat % 256 ^ ([0x12, 0x34] : ByteSeq).length = portSum [0x12, 0x34] := by
  refine ⟨by decide, by decide, ?_⟩
  rw [← seqNat_eq_portSum]
  decide

theorem witness_DecoderAccumulatorNeverExceedsItsWidth :
    foldPairs 0 0 [0x99, 0x99] = .ok 9999 ∧ ([0x99, 0x99] : ByteSeq).length ≤ bytesThatFit 16 := ⟨rfl, by decide⟩

theorem witness_LosslessDecodeGivesTheWholeInteger :
    ([0x99, 0x99] : ByteSeq).length ≤ cfg.params.M ∧ ([0x99, 0x99] : ByteSeq).length ≤ bytesThatFit cfg.params.W ∧
    AllValid [0x99, 0x99] := ⟨by decide, by decide, by unfold AllValid; decide⟩

theorem witness_LossyDecodeGivesTheLowDigits :
    ([0x01, 0x23, 0x45] : ByteSeq).length ≤ cfg.params.M ∧
    bytesThatFit cfg.params.W < ([0x01, 0x23, 0x45] : ByteSeq).length ∧
    AllValid (([0x01, 0x23, 0x45] : ByteSeq).drop (3 - bytesThatFit cfg.params.W)) ∧ AllValid [0x01, 0x23, 0x45] := by
  refine ⟨by decide, by decide, ?_, ?_⟩ <;> unfold AllValid <;> decide

/-- Lossless and lossy: E10 and E15 with X16. -/
theorem witness_DecodeOfEncodeReturnsTheInteger :
    (9999 < 2 ^ cfg.params.W ∧ 2 ≤ cfg.params.M ∧ 9999 ≤ 10 ^ (2 * 2) - 1 ∧ 2 ≤ bytesThatFit cfg.params.W) ∧
    (65535 < 2 ^ cfg.params.W ∧ 3 ≤ cfg.params.M ∧ 65535 ≤ 10 ^ (2 * 3) - 1 ∧ bytesThatFit cfg.params.W < 3) := by decide

theorem witness_ResizeTruncatesOrPads :
    ((req 0xC 0 0 0 0 4 0 4).op = 0xC ∧ (req 0xC 0 0 0 0 4 0 4).lenIn.toNat ≤ 4 ∧
      (req 0xC 0 0 0 0 4 0 4).nIn.toNat ≤ 4) ∧
    ([0x12, 0x34] : ByteSeq).length ≤ cfg.params.M ∧ (1 ≤ cfg.params.M ∧ 1 < ([0x12, 0x34] : ByteSeq).length) ∧
    (2 ≤ cfg.params.M ∧ ([0x12, 0x34] : ByteSeq).length = 2) ∧
    (4 ≤ cfg.params.M ∧ ([0x12, 0x34] : ByteSeq).length < 4) := by decide

theorem witness_ResizeLawsHold :
    (1 ≤ 1 ∨ ([0x12, 0x34] : ByteSeq).length ≤ 1) ∧ (3 ≤ 2 ∨ ([0x12, 0x34] : ByteSeq).length ≤ 2) ∧
    AllValid [0x12, 0x34] ∧ (represents [0x00, 0x34] ≤ 10 ^ (2 * 1) - 1 ∨ ([0x00, 0x34] : ByteSeq).length ≤ 1) := by
  refine ⟨by decide, by decide, by unfold AllValid; decide, .inl ?_⟩
  simp [represents_cons]

theorem witness_FrombytesCopiesAValidSequence :
    ((req 0xD 0 0 0 0 7 0 4).op = 0xD ∧ (req 0xD 0 0 0 0 7 0 4).lenIn.toNat ≤ 4) ∧
    ([0x99, 0x99, 0x99, 0x99] : ByteSeq).length ≤ cfg.params.M ∧ AllValid [0x99, 0x99, 0x99, 0x99] ∧
    FirstBadFrom [0xF0, 0x0A] 0 0 ∧ FirstBadFrom [0x12, 0xA4] 0 1 := by
  refine ⟨by decide, by decide, by unfold AllValid; decide, ?_, ?_⟩
  · exact ⟨by decide, by decide, by decide, fun j h1 h2 => absurd h2 (Nat.not_lt_zero j)⟩
  · refine ⟨by decide, by decide, by decide, fun j h1 h2 => ?_⟩
    obtain rfl : j = 0 := by omega
    decide

theorem witness_FrombytesnValidatesThenTruncatesOrPads :
    ((req 0xE 0 0 0 0 4 0 4).op = 0xE ∧ (req 0xE 0 0 0 0 4 0 4).lenIn.toNat ≤ 4 ∧
      (req 0xE 0 0 0 0 4 0 4).nIn.toNat ≤ 4) ∧
    ([0x12, 0x34] : ByteSeq).length ≤ cfg.params.M ∧ 0 ≤ cfg.params.M ∧ 4 ≤ cfg.params.M ∧ AllValid [0x12, 0x34] ∧
    FirstBadFrom [0xAF, 0x34] 0 0 := by
  refine ⟨by decide, by decide, by decide, by decide, by unfold AllValid; decide, ?_⟩
  exact ⟨by decide, by decide, by decide, fun j h1 h2 => absurd h2 (Nat.not_lt_zero j)⟩

theorem witness_FrombytesnIsFrombytesThenResize :
    ([0x12, 0xA4] : ByteSeq).length ≤ cfg.params.M ∧ 4 ≤ cfg.params.M := by decide

theorem witness_StatusesAreThoseOfTheTable :
    65535 < 2 ^ cfg.params.W ∧ 4 ≤ cfg.params.M ∧ ([0, 0, 0, 0] : ByteSeq).length ≤ cfg.params.M := by decide

theorem witness_WellFormedInstructionsAnswerAllOrNothing :
    (Instr.encode 65535 2).wellFormed cfg.params.W cfg.params.M = true ∧
    (Instr.decode [0xAF]).wellFormed cfg.params.W cfg.params.M = true := by decide

theorem witness_IllFormedInstructionsAreRefused :
    (Instr.encode 65536 2).wellFormed cfg.params.W cfg.params.M = false ∧
    (Instr.encode 0 5).wellFormed cfg.params.W cfg.params.M = false ∧
    (Instr.frombytes [0, 0, 0, 0, 0]).wellFormed cfg.params.W cfg.params.M = false := by decide

theorem witness_ResponseDependsOnTheRequestAlone :
    Answers (.pack 4 5) cfg { Response.zero 16 4 with byteOut := 0x45 } := rfl

/-- The section 4 configuration with a request on the ports, and with a reset beside it. -/
theorem witness_StepRunsTheDecodedInstruction :
    (cfg.withRequest (req 0x0 4 5 0 0 0 0 0)).inputs.rst = false ∧
    (cfg.withRequest (req 0x0 4 5 0 0 0 0 0)).inputs.reqValid = true ∧
    decode (cfg.withRequest (req 0x0 4 5 0 0 0 0 0)).inputs.req = .ok (.pack 4 5) ∧
    Answers (.pack 4 5) (cfg.withRequest (req 0x0 4 5 0 0 0 0 0)) { Response.zero 16 4 with byteOut := 0x45 } :=
  ⟨rfl, rfl, rfl, rfl⟩

theorem witness_EdgeWithoutARequestAcceptsNothing : cfg.inputs.rst = false ∧ cfg.inputs.reqValid = false := ⟨rfl, rfl⟩

/-- A block with two responses' latency, a request on its ports and `rst = 1`. -/
def resetting : State :=
  { blockOf { W := 16, M := 4, LAT := 2 } with
    inputs := { rst := true, reqValid := true, req := req 0x0 4 5 0 0 0 0 0 } }

theorem witness_ResetEdgeDiscardsEverythingPending : resetting.inputs.rst = true := rfl

theorem witness_MalformedRequestsDisturbNoOtherResponse :
    (cfg.withRequest (req 0x0 4 5 0 0 0 0 0)).inputs.rst = false ∧
    (cfg.withRequest (req 0x0 4 5 0 0 0 0 0)).inputs.reqValid = true ∧
    wellFormedRequest (cfg.withRequest (req 0x0 4 5 0 0 0 0 0)).inputs.req = true ∧
    (disturbed.inputs.rst = false ∧ disturbed.inputs.reqValid = true ∧
      wellFormedRequest disturbed.inputs.req = false) ∧
    wellFormedRequest (cfg.withRequest (req 0x8 0 0 0 0 0 0 5)).inputs.req = false ∧
    cfg.inputs.quiet ∧ resetting.inputs.quiet :=
  ⟨rfl, rfl, rfl, ⟨rfl, rfl, rfl⟩, rfl, .inr rfl, .inl rfl⟩

theorem witness_StepKeepsTheParameters : step cfg = .next cfg.acceptNothing.finishEdge := rfl

/-- A slot without a response is legal. -/
theorem slotLegal_none (W M : Nat) : SlotLegal (none : Option (Response W M)) := by
  intro r h
  cases h

/-- A block out of reset meets the invariant, whatever its parameters. -/
theorem blockOf_inv (P : Params) : (blockOf P).Inv := by
  refine ⟨List.length_replicate, fun x hx => .inl ?_, .inl (slotLegal_none _ _)⟩
  rw [(List.mem_replicate.1 hx).2]
  exact slotLegal_none _ _

theorem witness_EveryStepKeepsTheInvariant : cfg.Inv ∧ step cfg = .next cfg.acceptNothing.finishEdge :=
  ⟨blockOf_inv _, rfl⟩

theorem witness_ZeroLatencyAnswersOnTheSameEdge :
    cfg.params.LAT = 0 ∧ (cfg.withRequest (req 0x0 4 5 0 0 0 0 0)).Inv ∧
    (cfg.withRequest (req 0x0 4 5 0 0 0 0 0)).inputs.calm ∧
    step (cfg.withRequest (req 0x0 4 5 0 0 0 0 0)) =
      .next ((cfg.withRequest (req 0x0 4 5 0 0 0 0 0)).accept { Response.zero 16 4 with byteOut := 0x45 }).finishEdge :=
  ⟨rfl, blockOf_inv _, ⟨rfl, fun _ => rfl⟩, rfl⟩

/-- Latency 2, a request now, an idle edge and a malformed request behind it. -/
def busy : State :=
  { blockOf { W := 16, M := 4, LAT := 2 } with
    inputs := { rst := false, reqValid := true, req := req 0x0 4 5 0 0 0 0 0 }
    later := [Inputs.idle 16 4, { rst := false, reqValid := true, req := req 0x3 0 0 0x45 0 0 0 0 }] }

/-- No reset in the edges behind the request of `busy`. -/
theorem busy_later : ∀ x ∈ busy.later.take busy.params.LAT, x.rst = false := by
  intro x hx
  rcases List.mem_cons.1 (List.mem_of_mem_take hx : x ∈ busy.later) with rfl | hx
  · rfl
  · rcases List.mem_singleton.1 hx with rfl
    rfl

theorem witness_ResponseComesExactlyLatEdgesLater :
    busy.pending.length = busy.params.LAT ∧ (∀ x ∈ busy.later.take busy.params.LAT, x.rst = false) ∧
    busy.inputs.rst = false ∧ busy.inputs.reqValid = true ∧ decode busy.inputs.req = .ok (.pack 4 5) ∧
    Answers (.pack 4 5) busy { Response.zero 16 4 with byteOut := 0x45 } ∧
    (cfg.pending.length = cfg.params.LAT ∧ cfg.inputs.rst = false ∧ cfg.inputs.reqValid = false) ∧
    (disturbed.pending.length = disturbed.params.LAT ∧ disturbed.later = [] ∧ disturbed.inputs.rst = false ∧
      disturbed.inputs.reqValid = true ∧ wellFormedRequest disturbed.inputs.req = false) :=
  ⟨rfl, busy_later, rfl, rfl, rfl, rfl, ⟨rfl, rfl, rfl⟩, rfl, rfl, rfl, rfl, rfl⟩

theorem witness_WellFormedInputsKeepEveryResponseLegal :
    cfg.AllLegal ∧ cfg.inputs.calm ∧ step cfg = .next cfg.acceptNothing.finishEdge ∧ resetting.inputs.rst = true :=
  ⟨⟨rfl, nofun, slotLegal_none _ _⟩, ⟨rfl, nofun⟩, rfl, rfl⟩

/-- One request in two surroundings: behind nothing and before a malformed request, and behind two responses. -/
theorem witness_OtherRequestsChangeNoResponse :
    busy.inputs.rst = false ∧ busy.inputs.reqValid = true ∧ wellFormedRequest busy.inputs.req = true ∧
    (busy.pending.length = busy.params.LAT ∧ ∀ x ∈ busy.later.take busy.params.LAT, x.rst = false) ∧
    ([some { Response.zero 16 4 with byteOut := 0x45 }, none] : List (Option (Response 16 4))).length = busy.params.LAT :=
  ⟨rfl, rfl, rfl, ⟨rfl, busy_later⟩, rfl⟩

theorem witness_NothingPendingSurvivesAReset :
    resetting.inputs.rst = true ∧ ∀ x ∈ resetting.later.take 3, x.quiet :=
  ⟨rfl, fun _ hx => absurd hx List.not_mem_nil⟩

end Sys2Proof.Machine.Tests
end

section
/-! Proofs of the state family: the layout of a byte sequence on its port (R25). -/

namespace Sys2Proof.Machine

/-- R25's layout of the input form, one bit at a time. -/
theorem getLsbD_getD_seqOfPort {w : Nat} (p : BitVec w) {L i k : Nat} (hi : i < L) (hk : k < 8) :
    ((seqOfPort p L).getD i 0).getLsbD k = p.getLsbD (8 * (L - 1 - i) + k) := by
  have hlen : i < (seqOfPort p L).length := by rwa [length_seqOfPort]
  rw [List.getD_eq_getElem _ _ hlen, getElem_seqOfPort, BitVec.getLsbD_extractLsb']
  simp [hk]

/-- Settles O27: the input form is R25's layout bit by bit, the output form is the base-256 sum `portSum`, and the
bytes read from a port depend only on its low `8 * L` bits. -/
theorem sequencesLieRightJustified : Obligations.SequencesLieRightJustified :=
  ⟨fun _ L p => ⟨length_seqOfPort p L, fun _ hi _ hk => getLsbD_getD_seqOfPort p hi hk⟩,
    fun M b p hb => ⟨toNat_seqToPort M b hb, portSum_lt b, seqOfPort_of_low_bits p b⟩⟩

end Sys2Proof.Machine
end

section
/-! Proofs of the noninterference family (R44, R156): what `exec` answers depends on the instruction and on the widths
`W` and `M` of the instance, and on nothing else that the block holds. -/

namespace Sys2Proof.Machine

/-- All that a block of the widths `W` and `M` has besides them: its latency, what is on its ports now and later, its
pending responses, its response signals and its counter. -/
structure Surroundings (W M : Nat) where
  lat : Nat
  inputs : Inputs W M
  later : List (Inputs W M)
  pending : List (Option (Response W M))
  rsp : Option (Response W M)
  free : Nat

/-- A block of the same widths in other surroundings. -/
def State.within (s : State) (c : Surroundings s.params.W s.params.M) : State :=
  { params := { s.params with LAT := c.lat }, inputs := c.inputs, later := c.later, pending := c.pending, rsp := c.rsp,
    free := c.free }

variable {s : State} {c : Surroundings s.params.W s.params.M}

@[simp] theorem State.within_params_W : (s.within c).params.W = s.params.W := rfl

/-- A reply tells its response: it is the youngest pending one. -/
theorem reply_inj {r r' : Response s.params.W s.params.M} : reply s r = reply s r' ↔ r = r' := by
  refine ⟨fun h => ?_, congrArg (reply s)⟩
  have hs : s.accept r = s.accept r' := Host.Outcome.next.inj h
  simpa [State.accept] using hs

/-- An outcome in `s` and one in the other surroundings are the same end: replies with one response, or one refusal. -/
def EndsAlike (c : Surroundings s.params.W s.params.M) (o o' : Host.Outcome State Fault Refusal) : Prop :=
  (∃ r : Response s.params.W s.params.M, o = reply s r ∧ o' = reply (s.within c) r) ∨
    ∃ ρ, o = .refused ρ ∧ o' = .refused ρ

variable {k k' : Host.Outcome State Fault Refusal}

theorem EndsAlike.reply (r : Response s.params.W s.params.M) : EndsAlike c (reply s r) (reply (s.within c) r) :=
  .inl ⟨r, rfl, rfl⟩

theorem EndsAlike.refused (ρ : Refusal) : EndsAlike c (.refused ρ) (.refused ρ) := .inr ⟨ρ, rfl, rfl⟩

theorem EndsAlike.replySeq (b : ByteSeq) : EndsAlike c (replySeq s b) (replySeq (s.within c) b) := .reply _

theorem EndsAlike.raiseFailure (f : Failure) : EndsAlike c (raiseFailure f s) (raiseFailure f (s.within c)) := by
  cases f with
  | overflow v max => exact .reply _
  | invalidFormat i => exact .reply _

/-- A branch on a condition that reads no surroundings. -/
theorem EndsAlike.ite {p : Prop} [Decidable p] {o o' : Host.Outcome State Fault Refusal} (h : EndsAlike c k k')
    (h' : EndsAlike c o o') : EndsAlike c (if p then k else o) (if p then k' else o') := by
  split
  · exact h
  · exact h'

/-! The operand checks read only the widths. -/

theorem EndsAlike.requireCount {n : Nat} (h : EndsAlike c k k') :
    EndsAlike c (requireCount n s k) (requireCount n (s.within c) k') := .ite h (.refused _)

theorem EndsAlike.requireSeq {b : ByteSeq} (h : EndsAlike c k k') :
    EndsAlike c (requireSeq b s k) (requireSeq b (s.within c) k') := .ite h (.refused _)

theorem EndsAlike.requireInteger {v : Nat} (h : EndsAlike c k k') :
    EndsAlike c (requireInteger v s k) (requireInteger v (s.within c) k') := .ite h (.refused _)

/-- Every instruction ends alike in all surroundings. -/
theorem exec_endsAlike (i : Instr) (s : State) (c : Surroundings s.params.W s.params.M) :
    EndsAlike c (exec i s) (exec i (s.within c)) := by
  cases i with
  | pack t o => exact .reply _
  | unpack b => exact .reply _
  | validate b => exact .reply _
  | encode v n => exact .requireInteger (.requireCount (.ite (.raiseFailure _) (.replySeq _)))
  | encmin v => exact .requireInteger (.ite (.raiseFailure _) (.replySeq _))
  | decode b =>
    refine .requireSeq ?_
    dsimp only [State.within_params_W]
    cases foldPairs (b.length - consumed s.params.W b.length) 0 (last b (consumed s.params.W b.length)) with
    | error i => exact .raiseFailure _
    | ok acc => exact .reply _
  | resize b n => exact .requireSeq (.requireCount (.replySeq _))
  | frombytes b =>
    refine .requireSeq ?_
    cases firstInvalid b with
    | some i => exact .raiseFailure _
    | none => exact .replySeq _
  | frombytesn b n =>
    refine .requireSeq (.requireCount ?_)
    cases firstInvalid b with
    | some i => exact .raiseFailure _
    | none => exact .replySeq _

/-- The answer in one block is the answer in every block of the same widths. -/
theorem Answers.within {i : Instr} {r : Response s.params.W s.params.M} (h : Answers i s r)
    (c : Surroundings s.params.W s.params.M) : Answers i (s.within c) r := by
  rw [answers_iff] at h
  rcases exec_endsAlike i s c with ⟨r', hs, hc⟩ | ⟨ρ, hs, -⟩
  · obtain rfl : r = r' := reply_inj.1 (h.symm.trans hs)
    exact hc
  · cases h.symm.trans hs

/-- Settles O40: no arm of `exec` reads the surroundings (`exec_endsAlike`), so the answer carries over to any others. -/
theorem responseDependsOnTheRequestAlone : Obligations.ResponseDependsOnTheRequestAlone :=
  fun _ _ _ h lat inputs later pending rsp free => h.within ⟨lat, inputs, later, pending, rsp, free⟩

end Sys2Proof.Machine
end

section
/-! Proofs of the encoding family: the three conditions of R63 on a request, what the decoder reads from one that meets
them, and that such an instruction is never refused. -/

namespace Sys2Proof

/-- The codes that select an operation are the nine of R57. -/
theorem mem_codes_iff (c : BitVec 4) :
    c ∈ [0x0, 0x1, 0x2, 0x4, 0x5, 0x8, 0xC, 0xD, 0xE] ↔ ∃ o, decodeOp c = some o := by
  rw [← Option.isSome_iff_exists]
  decide +revert

theorem encodeOp_mem_seqCodes_iff (o : Op) : encodeOp o ∈ [0x8, 0xC, 0xD, 0xE] ↔ o.readsSeq = true := by
  cases o <;> decide

theorem encodeOp_mem_countCodes_iff (o : Op) : encodeOp o ∈ [0x4, 0xC, 0xE] ↔ o.readsCount = true := by
  cases o <;> decide

/-- A length port of a capacity one below a power of two carries no value above the capacity. -/
theorem toNat_le_of_add_one_eq_two_pow {M k : Nat} (hM : 1 ≤ M) (hk : M + 1 = 2 ^ k) (x : BitVec (lengthWidth M)) :
    x.toNat ≤ M := by
  have hwidth : lengthWidth M ≤ k := (Nat.log2_lt (by omega)).2 (by omega)
  have hport : x.toNat < M + 1 := by
    calc x.toNat < 2 ^ lengthWidth M := x.isLt
      _ ≤ 2 ^ k := Nat.pow_le_pow_right (by decide) hwidth
      _ = M + 1 := hk.symm
  exact Nat.le_of_lt_succ hport

/-! ### What the decoder reads -/

section
variable {W M : Nat}

/-- Conditions 2 and 3 of R63 for a request that selects `o`. -/
def Request.FitsPorts (r : Request W M) (o : Op) : Prop :=
  (o.readsSeq = true → r.lenIn.toNat ≤ M) ∧ (o.readsCount = true → r.nIn.toNat ≤ M)

/-- The instance of `o` whose operands are the ports of its format (R56, R64). -/
def Request.operands (r : Request W M) : Op → Instr
  | .pack => .pack r.tensIn r.onesIn
  | .unpack => .unpack r.byteIn
  | .validate => .validate r.byteIn
  | .encode => .encode r.binIn.toNat r.nIn.toNat
  | .encmin => .encmin r.binIn.toNat
  | .decode => .decode (seqOfPort r.seqIn r.lenIn.toNat)
  | .resize => .resize (seqOfPort r.seqIn r.lenIn.toNat) r.nIn.toNat
  | .frombytes => .frombytes (seqOfPort r.seqIn r.lenIn.toNat)
  | .frombytesn => .frombytesn (seqOfPort r.seqIn r.lenIn.toNat) r.nIn.toNat

variable (r : Request W M) {i : Instr}

theorem withSeq_eq_ok_iff {k : ByteSeq → Except DecodeError Instr} :
    withSeq r k = .ok i ↔ r.lenIn.toNat ≤ M ∧ k (seqOfPort r.seqIn r.lenIn.toNat) = .ok i :=
  ⟨withSeq_eq_ok r, fun ⟨hlen, hk⟩ => (withSeq_of_le r hlen k).trans hk⟩

theorem withCount_eq_ok_iff {k : Nat → Except DecodeError Instr} :
    withCount r k = .ok i ↔ r.nIn.toNat ≤ M ∧ k r.nIn.toNat = .ok i :=
  ⟨withCount_eq_ok r, fun ⟨hn, hk⟩ => (withCount_of_le r hn k).trans hk⟩

/-- The decoder on a request whose code selects `o`. -/
theorem decode_eq_ok_iff_of_decodeOp {o : Op} (ho : decodeOp r.op = some o) :
    decode r = .ok i ↔ r.FitsPorts o ∧ r.operands o = i := by
  cases o <;>
    simp [decode, ho, withSeq_eq_ok_iff, withCount_eq_ok_iff, Request.FitsPorts, Request.operands, Op.readsSeq,
      Op.readsCount, Op.format, and_assoc]

/-- An instruction comes out of the decoder exactly when the code selects an operation and its ports meet conditions 2
and 3 of R63. -/
theorem decode_eq_ok_iff : decode r = .ok i ↔ ∃ o, decodeOp r.op = some o ∧ r.FitsPorts o ∧ r.operands o = i := by
  cases ho : decodeOp r.op with
  | none => simp [decode, ho]
  | some o => simp [decode_eq_ok_iff_of_decodeOp r ho]

/-- The operands on the ports are well formed exactly when the ports meet conditions 2 and 3: `bin_in` always fits. -/
theorem Request.wellFormed_operands_iff (o : Op) : (r.operands o).wellFormed W M = true ↔ r.FitsPorts o := by
  have hbin : r.binIn.toNat < 2 ^ W := r.binIn.isLt
  cases o <;>
    simp [Request.operands, Request.FitsPorts, Instr.wellFormed, fitsInteger, fitsSeq, fitsCount, Op.readsSeq,
      Op.readsCount, Op.format, hbin]

variable {r}

theorem wellFormed_of_decode_eq_ok (h : decode r = .ok i) : i.wellFormed W M = true := by
  obtain ⟨o, -, hfits, rfl⟩ := (decode_eq_ok_iff r).1 h
  exact (r.wellFormed_operands_iff o).2 hfits

/-- The conditions of R63 as code lists are those the decoder tests. -/
theorem fitsPorts_iff_of_decodeOp {o : Op} (ho : decodeOp r.op = some o) :
    r.FitsPorts o ↔
      (r.op ∈ [0x8, 0xC, 0xD, 0xE] → r.lenIn.toNat ≤ M) ∧ (r.op ∈ [0x4, 0xC, 0xE] → r.nIn.toNat ≤ M) := by
  rw [eq_encodeOp_of_decodeOp r.op o ho, encodeOp_mem_seqCodes_iff, encodeOp_mem_countCodes_iff, Request.FitsPorts]

/-- R63: the decoder reads an instruction exactly when the three conditions hold. -/
theorem exists_decode_eq_ok_iff (r : Request W M) :
    (∃ i, decode r = .ok i) ↔
      r.op ∈ [0x0, 0x1, 0x2, 0x4, 0x5, 0x8, 0xC, 0xD, 0xE] ∧
        (r.op ∈ [0x8, 0xC, 0xD, 0xE] → r.lenIn.toNat ≤ M) ∧ (r.op ∈ [0x4, 0xC, 0xE] → r.nIn.toNat ≤ M) := by
  rw [mem_codes_iff]
  constructor
  · rintro ⟨i, hi⟩
    obtain ⟨o, ho, hfits, -⟩ := (decode_eq_ok_iff r).1 hi
    exact ⟨⟨o, ho⟩, (fitsPorts_iff_of_decodeOp ho).1 hfits⟩
  · rintro ⟨⟨o, ho⟩, hports⟩
    exact ⟨_, (decode_eq_ok_iff r).2 ⟨o, ho, (fitsPorts_iff_of_decodeOp ho).2 hports, rfl⟩⟩

end

/-! ### A well-formed instruction is answered -/

namespace Machine

variable {s : State} {ρ : Refusal}

theorem reply_ne_refused (r : Response s.params.W s.params.M) : reply s r ≠ .refused ρ := nofun

theorem replySeq_ne_refused (b : ByteSeq) : replySeq s b ≠ .refused ρ := reply_ne_refused _

theorem raiseFailure_ne_refused (f : Failure) : raiseFailure f s ≠ .refused ρ := by
  cases f with
  | overflow v max => exact reply_ne_refused _
  | invalidFormat i => exact reply_ne_refused _

/-- Only the operand checks refuse, and a well-formed instruction passes them. -/
theorem exec_ne_refused {i : Instr} (h : i.wellFormed s.params.W s.params.M = true) : exec i s ≠ .refused ρ := by
  cases i <;> simp only [Instr.wellFormed, fitsInteger, fitsSeq, fitsCount, Bool.and_eq_true, decide_eq_true_eq] at h
  case pack | unpack | validate => exact reply_ne_refused _
  case encode v n =>
    obtain ⟨hv, hn⟩ := h
    rw [exec, execEncode, requireInteger_of_lt hv, requireCount_of_le hn]
    split
    · exact raiseFailure_ne_refused _
    · exact replySeq_ne_refused _
  case encmin v =>
    rw [exec, execEncmin, requireInteger_of_lt h]
    split
    · exact raiseFailure_ne_refused _
    · exact replySeq_ne_refused _
  case decode b =>
    rw [exec, execDecode, requireSeq_of_le h]
    split
    · exact raiseFailure_ne_refused _
    · exact reply_ne_refused _
  case resize b n =>
    obtain ⟨hb, hn⟩ := h
    rw [exec, execResize, requireSeq_of_le hb, requireCount_of_le hn]
    exact replySeq_ne_refused _
  case frombytes b =>
    rw [exec, execFrombytes, requireSeq_of_le h]
    split
    · exact raiseFailure_ne_refused _
    · exact replySeq_ne_refused _
  case frombytesn b n =>
    obtain ⟨hb, hn⟩ := h
    rw [exec, execFrombytesn, requireSeq_of_le hb, requireCount_of_le hn]
    split
    · exact raiseFailure_ne_refused _
    · exact replySeq_ne_refused _

/-- A well-formed instruction is answered with a legal response. -/
theorem exists_answers_of_wellFormed {i : Instr} (h : i.wellFormed s.params.W s.params.M = true) :
    ∃ r : Response s.params.W s.params.M, Answers i s r ∧ r.legal := by
  rcases exec_endsWell i s with ⟨r, hlegal, hreply⟩ | ⟨ρ, hrefused⟩
  · exact ⟨r, hreply, hlegal⟩
  · exact absurd hrefused (exec_ne_refused h)

/-- Settles O6: the decoder's one spec lemma gives the three conditions; no port exceeds a capacity one below a power of
two; and what was decoded is well formed, so it is answered with a legal response. -/
theorem requestIsExecutedIffWellFormed : Obligations.RequestIsExecutedIffWellFormed := by
  refine ⟨fun W M r => ⟨exists_decode_eq_ok_iff r, ?_⟩, fun s i hi => ?_⟩
  · rintro hM hcode ⟨k, hk⟩
    have hport := toNat_le_of_add_one_eq_two_pow hM hk
    exact (exists_decode_eq_ok_iff r).2 ⟨hcode, fun _ => hport r.lenIn, fun _ => hport r.nIn⟩
  · obtain ⟨r, hanswers, hlegal⟩ := exists_answers_of_wellFormed (wellFormed_of_decode_eq_ok hi)
    exact ⟨r, hanswers, hlegal.1⟩

end Machine

end Sys2Proof
end

section
/-! Proofs of the digit-pair family (R76 to R78): how a request selects its operation, and that each of the three
operations ends in one reply, whose field is the nibble arithmetic of Laws/Bytes. -/

namespace Sys2Proof

/-- A request with the code of `o` whose ports meet conditions 2 and 3 of R63 is `o` with the operands on its ports. -/
theorem decode_eq_operands_of_op_eq {W M : Nat} {r : Request W M} (o : Op) (hop : r.op = encodeOp o)
    (hfits : r.FitsPorts o) : decode r = .ok (r.operands o) :=
  (decode_eq_ok_iff_of_decodeOp r (by rw [hop, decodeOp_encodeOp])).2 ⟨hfits, rfl⟩

/-- An operation that reads no length port and no count port has no condition on its ports. -/
theorem fitsPorts_of_reads_neither {W M : Nat} (r : Request W M) {o : Op} (hseq : o.readsSeq = false)
    (hcount : o.readsCount = false) : r.FitsPorts o :=
  ⟨fun h => by simp [hseq] at h, fun h => by simp [hcount] at h⟩

namespace Machine

/-! ### The replies -/

theorem answers_pack (t o : Nibble) (s : State) :
    Answers (.pack t o) s { Response.zero s.params.W s.params.M with status := 0, byteOut := packNibbles t o } := rfl

theorem answers_unpack (b : Byte) (s : State) :
    Answers (.unpack b) s { Response.zero s.params.W s.params.M with status := 0, tensOut := hi b, onesOut := lo b } :=
  rfl

theorem answers_validate (b : Byte) (s : State) :
    Answers (.validate b) s { Response.zero s.params.W s.params.M with status := 0, validOut := validFlag b } := rfl

/-! ### The fields of the replies -/

/-- A byte has only one pair of nibbles. -/
theorem hi_lo_eq_of_toNat_eq {b : Byte} {t o : Nibble} (h : b.toNat = 16 * t.toNat + o.toNat) :
    hi b = t ∧ lo b = o := by
  have ho := o.isLt
  constructor <;> apply BitVec.eq_of_toNat_eq
  · rw [hi_toNat]
    omega
  · rw [lo_toNat]
    omega

theorem validFlag_eq_ite (b : Byte) : validFlag b = if b.toNat / 16 ≤ 9 ∧ b.toNat % 16 ≤ 9 then 1 else 0 := by
  simp only [validFlag, validByte_iff]

/-! ### The statements -/

/-- Settles O12: the byte of the reply is `packNibbles t o`, whose value and validity are laws of the bytes. -/
theorem packGivesTheByteOfItsDigits : Obligations.PackGivesTheByteOfItsDigits :=
  ⟨fun _ _ r hop => decode_eq_operands_of_op_eq .pack hop (fitsPorts_of_reads_neither r rfl rfl),
    fun s t o => ⟨packNibbles t o, answers_pack t o s, packNibbles_toNat t o, validByte_packNibbles t o⟩⟩

/-- Settles O13: the nibbles of the reply are `hi b` and `lo b`, the quotient and the remainder by 16. -/
theorem unpackGivesTheNibblesOfItsByte : Obligations.UnpackGivesTheNibblesOfItsByte :=
  ⟨fun _ _ r hop => decode_eq_operands_of_op_eq .unpack hop (fitsPorts_of_reads_neither r rfl rfl),
    fun s b => ⟨hi b, lo b, answers_unpack b s, hi_toNat b, lo_toNat b, fun _ _ => hi_lo_eq_of_toNat_eq⟩⟩

/-- Settles O14: the flag of the reply is `validFlag b`, which compares the quotient and the remainder by 16 with 9. -/
theorem validateTellsWhetherBothNibblesAreDigits : Obligations.ValidateTellsWhetherBothNibblesAreDigits :=
  ⟨fun _ _ r hop => decode_eq_operands_of_op_eq .validate hop (fitsPorts_of_reads_neither r rfl rfl),
    fun s b => validFlag_eq_ite b ▸ answers_validate b s⟩

end Machine

end Sys2Proof
end

section
/-! Proofs of the encoder family (R91, R96): the encoder's loop as its list of base-100 digits, the bytes of a
successful encoding, and how `ENCODE` and `ENCMIN` answer on either side of their bounds. -/

namespace Sys2Proof.Machine

/-! ### The division loop -/

/-- With enough turns, the loop makes turn `j` exactly when `j` divisions by 100 leave something. -/
theorem lt_length_pushPairs_iff {fuel x : Nat} (h : x ≤ fuel) (j : Nat) :
    j < (pushPairs fuel x).length ↔ x / 100 ^ j ≠ 0 := by
  induction fuel generalizing x j with
  | zero =>
    obtain rfl : x = 0 := by omega
    simp [pushPairs]
  | succ fuel ih =>
    unfold pushPairs
    split
    · rename_i hx
      simp [hx]
    · rename_i hx
      cases j with
      | zero => simpa using hx
      | succ j =>
        rw [List.length_cons, Nat.succ_lt_succ_iff, ih (by omega), pow_succ', Nat.div_div_eq_div_mul]

/-- The loop pushes the digit pairs of the successive quotients. -/
theorem pushPairs_eq_map {fuel x : Nat} (h : x ≤ fuel) :
    pushPairs fuel x = (List.range (pushPairs fuel x).length).map fun j => pairByte (x / 100 ^ j % 100) := by
  refine List.ext_getElem (by simp) fun j hj _ => ?_
  rw [← List.getD_eq_getElem _ 0 hj, getD_pushPairs fuel x j h]
  simp

/-! ### The bytes of an encoding -/

theorem reverse_encodeSeq (v n : Nat) :
    (encodeSeq v n).reverse = pushPairs v v ++ zeros (n - (pushPairs v v).length) :=
  List.reverse_reverse _

/-- Padding with zero bytes changes no byte, as bytes past the end count as zero. -/
theorem getD_append_zeros (b : ByteSeq) (k i : Nat) : (b ++ zeros k).getD i 0 = b.getD i 0 := by
  rcases Nat.lt_or_ge i b.length with hi | hi
  · exact List.getD_append _ _ _ _ hi
  · rw [List.getD_append_right _ _ _ _ hi, List.getD_eq_default _ _ hi, zeros]
    simp

/-- Byte `i` of an encoding is base-100 digit `n - 1 - i` of the value. -/
theorem getElem?_encodeSeq {v n i : Nat} (h : v < 100 ^ n) (hi : i < n) :
    (encodeSeq v n)[i]? = some (pairByte (v / 100 ^ (n - 1 - i) % 100)) := by
  have hlen : (encodeSeq v n).reverse.length = n := by rw [List.length_reverse, length_encodeSeq v n h]
  have hdigit : (encodeSeq v n).reverse.getD (n - 1 - i) 0 = pairByte (v / 100 ^ (n - 1 - i) % 100) := by
    rw [reverse_encodeSeq, getD_append_zeros, getD_pushPairs v v _ le_rfl]
  rw [← List.reverse_reverse (encodeSeq v n), List.getElem?_reverse (by omega), hlen, ← hdigit,
    List.getD_eq_getElem _ _ (by omega), List.getElem?_eq_getElem]

theorem pairByte_ne_zero {dp : Nat} (h : dp < 100) (h0 : dp ≠ 0) : pairByte dp ≠ 0 := by
  intro hzero
  have hval : 0 = 16 * (dp / 10) + dp % 10 := by
    rw [← pairByte_toNat dp h, hzero]
    rfl
  omega

/-- A positive value at its minimal length has no leading zero byte (R96): its top digit `v / 100^(minlen(v) - 1)` is
between 1 and 99. -/
theorem getElem?_zero_encodeSeq_minlen_ne {v : Nat} (hv : 1 ≤ v) : (encodeSeq v (minlen v))[0]? ≠ some 0 := by
  have htop : 1 ≤ v / 100 ^ (minlen v - 1) :=
    (Nat.one_le_div_iff (by positivity)).2 (hundred_pow_pred_minlen_le v hv)
  have hlt : v / 100 ^ (minlen v - 1) < 100 := by
    rw [Nat.div_lt_iff_lt_mul (by positivity), ← pow_succ', Nat.sub_add_cancel (one_le_minlen v)]
    exact lt_hundred_pow_minlen v
  rw [getElem?_encodeSeq (lt_hundred_pow_minlen v) (one_le_minlen v), Nat.sub_zero, Nat.mod_eq_of_lt hlt]
  exact fun h => pairByte_ne_zero hlt (by omega) (Option.some.inj h)

/-! ### The capacity that no value of the port overflows -/

/-- `NMIN(W)` is the minimal length of the largest value of the port. -/
theorem nmin_eq_minlen (W : Nat) : nmin W = minlen (2 ^ W - 1) := by
  have hdigits : 1 ≤ ndigits (2 ^ W - 1) := by
    rcases Nat.eq_zero_or_pos (2 ^ W - 1) with h | h
    · rw [h, ndigits_zero]
    · exact (ndigits_bounds _ h).1
  unfold nmin minlen ceilDiv
  omega

/-- Only below `NMIN(W)` bytes does a value of the port overflow (R94). -/
theorem lt_nmin_of_overflow {W v n : Nat} (hv : v < 2 ^ W) (h : maxval n < v) : n < nmin W := by
  rw [nmin_eq_minlen, ← Nat.pow_lt_pow_iff_right (a := 100) (by decide)]
  calc 100 ^ n ≤ v := (maxval_lt_iff v n).1 h
    _ ≤ 2 ^ W - 1 := Nat.le_sub_one_of_lt hv
    _ < 100 ^ minlen (2 ^ W - 1) := lt_hundred_pow_minlen _

/-! ### The replies -/

section
variable {s : State} {v n : Nat} (hv : v < 2 ^ s.params.W)
include hv

theorem answers_encode (hn : n ≤ s.params.M) (h : v ≤ maxval n) :
    Answers (.encode v n) s (okSeq s.params.W s.params.M (encodeSeq v n)) := by
  rw [answers_iff, exec, execEncode, requireInteger_of_lt hv, requireCount_of_le hn, if_neg (Nat.not_lt.2 h),
    replySeq_eq]

theorem answers_encode_overflow (hn : n ≤ s.params.M) (h : maxval n < v) :
    Answers (.encode v n) s (overflowed s.params.W s.params.M v (maxval n)) := by
  rw [answers_iff, exec, execEncode, requireInteger_of_lt hv, requireCount_of_le hn, if_pos h, raise_overflow_eq]

theorem answers_encmin (h : v ≤ maxval s.params.M) :
    Answers (.encmin v) s (okSeq s.params.W s.params.M (encodeSeq v (minlen v))) := by
  rw [answers_iff, exec, execEncmin, requireInteger_of_lt hv, if_neg (Nat.not_lt.2 h), replySeq_eq]

theorem answers_encmin_overflow (h : maxval s.params.M < v) :
    Answers (.encmin v) s (overflowed s.params.W s.params.M v (maxval s.params.M)) := by
  rw [answers_iff, exec, execEncmin, requireInteger_of_lt hv, if_pos h, raise_overflow_eq]

end

/-! ### The statements -/

/-- Settles O17: the trace of the loop is `x j = v / 100^j`, and the loop makes as many turns as it pushes bytes. -/
theorem encodeRunsTheDivisionLoopOrOverflows : Obligations.EncodeRunsTheDivisionLoopOrOverflows := by
  refine ⟨fun _ _ r hop hn => decode_eq_operands_of_op_eq .encode hop ⟨nofun, fun _ => hn⟩,
    fun s v n hv hn => ⟨fun h => ?_, fun h => ?_⟩⟩
  · have hfit : v < 100 ^ n := (le_maxval_iff v n).1 h
    have hlen := length_encodeSeq v n hfit
    have hturn := lt_length_pushPairs_iff (le_refl v)
    refine ⟨encodeSeq v n, (pushPairs v v).length, fun j => v / 100 ^ j, answers_encode hv hn h, hlen, ?_, by simp,
      fun j hj => ⟨(hturn j).1 hj, ?_⟩, ?_, length_pushPairs_le v v n hfit, ?_⟩
    · rw [okSeq_lenOut _ (hlen.trans_le hn), hlen]
    · simp only [pow_succ, Nat.div_div_eq_div_mul]
    · exact not_not.1 (mt (hturn _).2 (Nat.lt_irrefl _))
    · rw [← pushPairs_eq_map (le_refl v)]
      exact reverse_encodeSeq v n
  · exact ⟨answers_encode_overflow hv hn h, overflowed_errValue hv, overflowed_errMax hv h⟩

/-- Settles O21: both operations reply with `encodeSeq v (minlen v)`, and its top digit is not zero. -/
theorem encminIsEncodeAtTheMinimalLength : Obligations.EncminIsEncodeAtTheMinimalLength := by
  refine ⟨fun _ _ r hop => decode_eq_operands_of_op_eq .encmin hop (fitsPorts_of_reads_neither r rfl rfl),
    fun s v hv => ⟨fun h => ?_, fun h => ?_⟩⟩
  · have hmin := lt_hundred_pow_minlen v
    have hcap : minlen v ≤ s.params.M := minlen_le_of_lt v s.params.M s.params.hM ((le_maxval_iff v _).1 h)
    refine ⟨encodeSeq v (minlen v), answers_encmin hv h, length_encodeSeq v _ hmin, one_le_minlen v, hcap,
      answers_encode hv hcap ((le_maxval_iff v _).2 hmin), ?_, getElem?_zero_encodeSeq_minlen_ne⟩
    rintro rfl
    rfl
  · exact ⟨answers_encmin_overflow hv h, overflowed_errValue hv, overflowed_errMax hv h, lt_nmin_of_overflow hv h⟩

end Sys2Proof.Machine
end

section
/-! Proofs of the decoder family (R106, R107): the trailing bytes that `DECODE` consumes, their fold as the integer they
represent, and how `DECODE` answers on valid and on invalid ones. -/

namespace Sys2Proof.Machine

/-! ### The consumed bytes -/

/-- The fold of R106, from 0, is the integer that the bytes represent. -/
theorem foldl_eq_represents (b : ByteSeq) :
    b.foldl (fun a x => a * 100 + (10 * (x.toNat / 16) + x.toNat % 16)) 0 = represents b := by
  rw [positional_foldl (fun x => 10 * (x.toNat / 16) + x.toNat % 16) 100 b 0, Nat.zero_mul, Nat.zero_add]
  rfl

/-- No more than `K(W)` valid bytes represent a value of the `W`-bit port (R108). -/
theorem represents_lt_two_pow {b : ByteSeq} {W : Nat} (h : AllValid b) (hlen : b.length ≤ bytesThatFit W) :
    represents b < 2 ^ W := by
  calc represents b < 100 ^ b.length := represents_lt b h
    _ ≤ 100 ^ bytesThatFit W := Nat.pow_le_pow_right (by decide) hlen
    _ ≤ 2 ^ W := hundred_pow_bytesThatFit_le W

theorem length_last_consumed (b : ByteSeq) (W : Nat) : (last b (consumed W b.length)).length = consumed W b.length :=
  length_last b _ (Nat.min_le_left _ _)

/-- The first invalid byte from `a` on is the first one of the bytes left when `a` are dropped, its index counted from
`a`. -/
theorem FirstBadFrom.drop {b : ByteSeq} {a i : Nat} (h : FirstBadFrom b a i) : FirstBadFrom (b.drop a) 0 (i - a) := by
  obtain ⟨hai, hib, hbad, hgood⟩ := h
  have hgetD : ∀ j, (b.drop a).getD j 0 = b.getD (a + j) 0 := fun j => by simp [List.getD_eq_getElem?_getD]
  refine ⟨Nat.zero_le _, ?_, ?_, fun j _ hj => ?_⟩
  · rw [List.length_drop]
    omega
  · rwa [hgetD, Nat.add_sub_cancel' hai]
  · rw [hgetD]
    exact hgood (a + j) (Nat.le_add_right a j) (by omega)

/-! ### The replies -/

section
variable {s : State} {b : ByteSeq} (hb : b.length ≤ s.params.M)
include hb

theorem answers_decode (h : AllValid (last b (consumed s.params.W b.length))) :
    Answers (.decode b) s
      (okInteger s.params.W s.params.M (represents (last b (consumed s.params.W b.length)))
        (decide (bytesThatFit s.params.W < b.length))) := by
  rw [answers_iff, exec, execDecode, requireSeq_of_le hb, foldPairs_of_allValid _ h, Nat.zero_mul, Nat.zero_add]
  simp only [okInteger, decide_eq_true_eq]
  rfl

theorem answers_decode_invalid {i : Nat} (h : FirstBadFrom b (b.length - consumed s.params.W b.length) i) :
    Answers (.decode b) s (badFormat s.params.W s.params.M i) := by
  rw [answers_iff, exec, execDecode, requireSeq_of_le hb, last, foldPairs_of_firstBad _ _ _ _ h.drop,
    Nat.add_sub_cancel' h.1]
  exact raise_invalidFormat_eq i s

end

/-! ### The statement -/

/-- Settles O26: `DECODE` consumes the last `min(L, K(W))` bytes; valid, they represent the fold, which `K(W)` keeps
within the port; otherwise the fold stops at the first invalid one, with its index in the whole sequence. -/
theorem decodeFoldsTheTrailingBytesThatFit : Obligations.DecodeFoldsTheTrailingBytesThatFit := by
  refine ⟨fun _ _ r hop hlen => decode_eq_operands_of_op_eq .decode hop ⟨fun _ => hlen, nofun⟩,
    fun s b hb => ⟨fun hvalid => ?_, fun i hi => ?_⟩⟩
  · have hfit : (last b (consumed s.params.W b.length)).length ≤ bytesThatFit s.params.W :=
      (length_last_consumed b s.params.W).trans_le (Nat.min_le_right _ _)
    exact ⟨_, (foldl_eq_represents _).symm, represents_lt_two_pow hvalid hfit, answers_decode hb hvalid⟩
  · have hlt : i < b.length := hi.2.1
    exact ⟨answers_decode_invalid hb hi, badFormat_errIndex (hlt.le.trans hb)⟩

end Sys2Proof.Machine
end

section
/-! Proofs of the sequence family (R117, R119, R121, R122): the three arms of truncate-or-pad, and how `FROMBYTES` and
`FROMBYTESN` answer on a valid sequence and on one with an invalid byte. -/

namespace Sys2Proof.Machine

/-! ### Truncate or pad -/

section
variable {b : ByteSeq} {n : Nat}

theorem truncateOrPad_of_length_eq (h : b.length = n) : truncateOrPad b n = b := if_pos h

theorem truncateOrPad_of_lt_length (h : n < b.length) : truncateOrPad b n = b.drop (b.length - n) := by
  rw [truncateOrPad, if_neg h.ne', if_pos h, last]

theorem truncateOrPad_of_length_lt (h : b.length < n) :
    truncateOrPad b n = List.replicate (n - b.length) 0x00 ++ b := by
  rw [truncateOrPad, if_neg h.ne, if_neg h.not_gt, zeros]

end

/-! ### The replies -/

section
variable {s : State} {b : ByteSeq} {n i : Nat} (hb : b.length ≤ s.params.M)
include hb

/-- The index of an invalid byte fits the port that reports it. -/
theorem badFormat_errIndex_of_firstBad (h : FirstBadFrom b 0 i) :
    (badFormat s.params.W s.params.M i).errIndex.toNat = i := by
  obtain ⟨-, hlt, -, -⟩ := h
  exact badFormat_errIndex (hlt.le.trans hb)

theorem answers_frombytes (h : AllValid b) : Answers (.frombytes b) s (okSeq s.params.W s.params.M b) := by
  rw [answers_iff, exec, execFrombytes, requireSeq_of_le hb, (firstInvalid_eq_none b).2 h]
  exact replySeq_eq s b

theorem answers_frombytes_invalid (h : FirstBadFrom b 0 i) :
    Answers (.frombytes b) s (badFormat s.params.W s.params.M i) := by
  rw [answers_iff, exec, execFrombytes, requireSeq_of_le hb, (firstInvalid_eq_some b i).2 h]
  exact raise_invalidFormat_eq i s

theorem answers_frombytesn (hn : n ≤ s.params.M) (h : AllValid b) :
    Answers (.frombytesn b n) s (okSeq s.params.W s.params.M (truncateOrPad b n)) := by
  rw [answers_iff, exec, execFrombytesn, requireSeq_of_le hb, requireCount_of_le hn, (firstInvalid_eq_none b).2 h]
  exact replySeq_eq s (truncateOrPad b n)

/-- The validation precedes the truncation: the invalid byte may be one that truncation would drop (R122). -/
theorem answers_frombytesn_invalid (hn : n ≤ s.params.M) (h : FirstBadFrom b 0 i) :
    Answers (.frombytesn b n) s (badFormat s.params.W s.params.M i) := by
  rw [answers_iff, exec, execFrombytesn, requireSeq_of_le hb, requireCount_of_le hn, (firstInvalid_eq_some b i).2 h]
  exact raise_invalidFormat_eq i s

end

/-! ### The statements -/

/-- Settles O34: the validation loop finds nothing in a valid sequence and the least index of an invalid byte in another,
and the reply follows it. -/
theorem frombytesCopiesAValidSequence : Obligations.FrombytesCopiesAValidSequence :=
  ⟨fun _ _ _ hop hlen => decode_eq_operands_of_op_eq .frombytes hop ⟨fun _ => hlen, nofun⟩,
    fun _ _ hb => ⟨answers_frombytes hb,
      fun _ hi => ⟨answers_frombytes_invalid hb hi, badFormat_errIndex_of_firstBad hb hi⟩⟩⟩

/-- Settles O35: the same validation loop runs over the whole input before `truncateOrPad`, whose three arms give the
sequence of the reply. -/
theorem frombytesnValidatesThenTruncatesOrPads : Obligations.FrombytesnValidatesThenTruncatesOrPads := by
  refine ⟨fun _ _ _ hop hlen hn => decode_eq_operands_of_op_eq .frombytesn hop ⟨fun _ => hlen, fun _ => hn⟩,
    fun s b n hb hn => ⟨fun hvalid => ?_, fun i hi => ?_⟩⟩
  · exact ⟨truncateOrPad b n, answers_frombytesn hb hn hvalid, length_truncateOrPad b n, truncateOrPad_of_length_eq,
      truncateOrPad_of_lt_length, truncateOrPad_of_length_lt⟩
  · exact ⟨answers_frombytesn_invalid hb hn hi, badFormat_errIndex_of_firstBad hb hi⟩

end Sys2Proof.Machine
end

section
/-! Proofs of the error model family (R131, R135): a well-formed instruction answers, and all or nothing. -/

namespace Sys2Proof.Machine

/-- Settles O38: every end of `exec` is a refusal or a legal response (`exec_endsWell`), and only the operand checks
refuse, which a well-formed instruction passes (`exec_ne_refused`). -/
theorem wellFormedInstructionsAnswerAllOrNothing : Obligations.WellFormedInstructionsAnswerAllOrNothing :=
  fun _ _ hwf => exists_answers_of_wellFormed hwf

end Sys2Proof.Machine
end

section
/-! Proofs of the encoding family, continued (R27, R57, R60, R63): the table's codes, the names under which the decoder
rejects, and the two directions of the round trip between instructions and request records. -/

namespace Sys2Proof

/-! ### The bytes on a port are its low bits -/

/-- Two ports carry the same sequence of `L` bytes exactly when their low `8 * L` bits agree (R25). -/
theorem seqOfPort_eq_iff {w : Nat} (p q : BitVec w) (L : Nat) :
    seqOfPort p L = seqOfPort q L ↔ ∀ k, k < 8 * L → p.getLsbD k = q.getLsbD k := by
  constructor
  · intro h k hk
    have hplace : 8 * (L - 1 - (L - 1 - k / 8)) + k % 8 = k := by omega
    have hbyte (r : BitVec w) : ((seqOfPort r L).getD (L - 1 - k / 8) 0).getLsbD (k % 8) = r.getLsbD k := by
      rw [Machine.getLsbD_getD_seqOfPort r (by omega) (by omega), hplace]
    rw [← hbyte p, h, hbyte q]
  · intro h
    refine List.map_congr_left fun i hi => BitVec.eq_of_getLsbD_eq fun k hk => ?_
    have hi : i < L := List.mem_range.1 hi
    simp [hk, h (8 * (L - 1 - i) + k) (by omega)]

/-! ### What the decoder answers -/

section
variable {W M : Nat}

/-- The decoder on a request whose code selects `o`: it checks the length, then the count, each where `o` reads it, and
rejects under the name of the first check that fails. -/
theorem decode_of_decodeOp (r : Request W M) {o : Op} (ho : decodeOp r.op = some o) :
    decode r =
      if o.readsSeq = true → r.lenIn.toNat ≤ M then
        if o.readsCount = true → r.nIn.toNat ≤ M then .ok (r.operands o)
        else .error (.countAboveCapacity r.nIn.toNat)
      else .error (.lengthAboveCapacity r.lenIn.toNat) := by
  cases o <;> simp [decode, ho, withSeq, withCount, Request.operands, Op.readsSeq, Op.readsCount, Op.format]

theorem Request.op_operands (r : Request W M) (o : Op) : (r.operands o).op = o := by
  cases o <;> rfl

/-- The condition of R63 as a check of the record is the decoder's acceptance. -/
theorem wellFormedRequest_iff (r : Request W M) :
    Machine.wellFormedRequest r = true ↔ ∃ i, decode r = .ok i := by
  cases ho : decodeOp r.op with
  | none => simp [Machine.wellFormedRequest, decode, ho]
  | some o =>
    simp [Machine.wellFormedRequest, ho, decode_eq_ok_iff_of_decodeOp r ho, Request.FitsPorts, imp_iff_not_or]

/-- Requests that agree on the fields `o` reads carry the same operands for it. -/
theorem Request.operands_eq_of_agreeOnRead {o : Op} {r q : Request W M} (h : Machine.AgreeOnRead o r q) :
    r.operands o = q.operands o := by
  obtain ⟨-, hdigits, hbyte, hbin, hcount, hseq⟩ := h
  have hbytes (ho : o.readsSeq = true) :
      seqOfPort r.seqIn r.lenIn.toNat = seqOfPort q.seqIn q.lenIn.toNat := by
    obtain ⟨hlen, hbits⟩ := hseq ho
    rw [← hlen, seqOfPort_eq_iff]
    exact hbits
  cases o <;> simp only [Request.operands]
  case pack => rw [(hdigits rfl).1, (hdigits rfl).2]
  case unpack | validate => rw [hbyte rfl]
  case encode => rw [hbin rfl, hcount rfl]
  case encmin => rw [hbin rfl]
  case decode | frombytes => rw [hbytes rfl]
  case resize | frombytesn => rw [hbytes rfl, hcount rfl]

end

/-! ### The round trip -/

section
variable {W M : Nat}

theorem op_encode (W M : Nat) (i : Instr) : (encode W M i).op = encodeOp i.op := by
  cases i <;> rfl

/-- The length port of the encoder's record gives back the length, and with it the sequence port the bytes. -/
theorem seqOfPort_seqToPort_lengthPort {b : ByteSeq} (h : b.length ≤ M) :
    seqOfPort (seqToPort M b) (BitVec.ofNat (lengthWidth M) b.length).toNat = b := by
  rw [Machine.toNat_length_port M b.length h, Machine.seqOfPort_seqToPort M b h]

/-- The encoder's record carries the operands of the instruction, each at a value its port can carry. -/
theorem operands_encode {i : Instr} (h : i.wellFormed W M = true) : (encode W M i).operands i.op = i := by
  have hbin {v : Nat} (hv : v < 2 ^ W) : (BitVec.ofNat W v).toNat = v := by
    rw [BitVec.toNat_ofNat, Nat.mod_eq_of_lt hv]
  cases i <;>
    simp only [Instr.wellFormed, fitsInteger, fitsSeq, fitsCount, Bool.and_eq_true, decide_eq_true_eq] at h <;>
    simp only [encode, Instr.op, Request.operands]
  case encode v n => rw [hbin h.1, Machine.toNat_length_port M n h.2]
  case encmin v => rw [hbin h]
  case decode b | frombytes b => rw [seqOfPort_seqToPort_lengthPort h]
  case resize b n | frombytesn b n => rw [seqOfPort_seqToPort_lengthPort h.1, Machine.toNat_length_port M n h.2]

/-- What the encoder writes for the operands on a request agrees with the request on the fields that `o` reads. -/
theorem agreeOnRead_encode_operands {r : Request W M} {o : Op} (ho : decodeOp r.op = some o) (hfits : r.FitsPorts o) :
    Machine.AgreeOnRead o r (encode W M (r.operands o)) := by
  have hop : r.op = (encode W M (r.operands o)).op := by
    rw [op_encode, r.op_operands]
    exact eq_encodeOp_of_decodeOp r.op o ho
  have hbits (hlen : r.lenIn.toNat ≤ M) : ∀ k, k < 8 * r.lenIn.toNat →
      r.seqIn.getLsbD k = (seqToPort M (seqOfPort r.seqIn r.lenIn.toNat)).getLsbD k := by
    have hback := Machine.seqOfPort_seqToPort M (seqOfPort r.seqIn r.lenIn.toNat) (by simpa using hlen)
    rw [Machine.length_seqOfPort] at hback
    exact (seqOfPort_eq_iff _ _ _).1 hback.symm
  refine ⟨hop, ?_, ?_, ?_, ?_, ?_⟩
  · cases o <;> simp [Op.readsDigits, Op.format, encode, Request.operands]
  · cases o <;> simp [Op.readsByte, Op.format, encode, Request.operands]
  · cases o <;> simp [Op.readsBin, Op.format, encode, Request.operands]
  · cases o <;> simp [Op.readsCount, Op.format, encode, Request.operands]
  · intro hreads
    have hb := hbits (hfits.1 hreads)
    cases o
    case decode | resize | frombytes | frombytesn => simpa [encode, Request.operands] using hb
    all_goals exact absurd hreads (by decide)

end

namespace Machine

/-! ### The statements -/

/-- Settles O3: the encoder's record has the instruction's own code, carries its operands, and meets conditions 2 and 3
of R63, since those are the well-formedness of the operands. -/
theorem decodeOfEncodeIsTheInstruction : Obligations.DecodeOfEncodeIsTheInstruction := by
  intro W M i hwf
  have hoperands := operands_encode hwf
  have hfits : (encode W M i).FitsPorts i.op := (Request.wellFormed_operands_iff _ _).1 (by rwa [hoperands])
  rw [decode_eq_operands_of_op_eq i.op (op_encode W M i) hfits, hoperands]

/-- Settles O4: a decoded instruction is the operands on the ports, which the encoder writes back. -/
theorem encodeOfDecodeAgreesOnFieldsRead : Obligations.EncodeOfDecodeAgreesOnFieldsRead := by
  intro W M r i hi
  obtain ⟨o, ho, hfits, rfl⟩ := (decode_eq_ok_iff r).1 hi
  rw [r.op_operands]
  exact ⟨wellFormed_of_decode_eq_ok hi, ho, agreeOnRead_encode_operands ho hfits⟩

/-- Settles O5: the decoder's checks and operands are on the fields that `o` reads. -/
theorem fieldsNotReadAreIgnored : Obligations.FieldsNotReadAreIgnored := by
  intro W M o r q ho hagree
  have hoperands := Request.operands_eq_of_agreeOnRead hagree
  obtain ⟨hop, -, -, -, hcount, hseq⟩ := hagree
  have hlen : o.readsSeq = true → r.lenIn = q.lenIn := fun hreads => (hseq hreads).1
  rw [decode_of_decodeOp r ho, decode_of_decodeOp q (hop ▸ ho), hoperands]
  by_cases hs : o.readsSeq = true <;> by_cases hc : o.readsCount = true <;> simp [hs, hc, hlen, hcount]

/-- Settles O7: the names are the two failing checks of `decode_of_decodeOp`. -/
theorem rejectedRequestsAreNamed : Obligations.RejectedRequestsAreNamed := by
  refine fun W M r => ⟨fun ho => by simp [decode, ho], fun o ho => ⟨fun hreads hlen => ?_, fun hreads hn hlen => ?_⟩⟩
  · rw [decode_of_decodeOp r ho, if_neg fun h => Nat.not_le.2 hlen (h hreads)]
  · rw [decode_of_decodeOp r ho, if_pos hlen, if_neg fun h => Nat.not_le.2 hn (h hreads)]

/-- Settles O1: the table is searched for each of the sixteen codes. -/
theorem operationCodesAreTheTables : Obligations.OperationCodesAreTheTables := by
  unfold Obligations.OperationCodesAreTheTables
  decide

/-- Settles O2: the four records, run through the decoder. -/
theorem writtenOutRequestsDecode : Obligations.WrittenOutRequestsDecode := ⟨rfl, rfl, rfl, rfl⟩

end Machine

end Sys2Proof
end

section
/-! Proofs of the constants (R6, R94, R95): the largest fitting byte count, the minimal length by powers of a hundred,
and the capacity from which nothing overflows. -/

namespace Sys2Proof.Machine

/-! ### The largest fitting byte count -/

/-- `K(W)` is the largest count that fits: no larger one is left out by the search, as `2^k <= 100^k`. -/
theorem le_bytesThatFit {W k : Nat} (h : 10 ^ (2 * k) ≤ 2 ^ W) : k ≤ bytesThatFit W := by
  have hk : k ≤ W := (Nat.pow_le_pow_iff_right (a := 2) (by decide)).1 <|
    calc 2 ^ k ≤ 100 ^ k := Nat.pow_le_pow_left (by decide) k
      _ = 10 ^ (2 * k) := (ten_pow_double k).symm
      _ ≤ 2 ^ W := h
  exact (largestFit_spec (2 ^ W) Nat.one_le_two_pow W).2 k hk h

/-! ### The minimal length -/

theorem minlen_le_iff {v n : Nat} (hn : 1 ≤ n) : minlen v ≤ n ↔ v < 100 ^ n :=
  ⟨fun h => (lt_hundred_pow_minlen v).trans_le (Nat.pow_le_pow_right (by decide) h), minlen_le_of_lt v n hn⟩

/-- The minimal length of a positive value is its count of base-100 digits. -/
theorem minlen_eq_iff {v k : Nat} (hv : 1 ≤ v) (hk : 1 ≤ k) : minlen v = k ↔ 100 ^ (k - 1) ≤ v ∧ v < 100 ^ k := by
  constructor
  · rintro rfl
    exact ⟨hundred_pow_pred_minlen_le v hv, lt_hundred_pow_minlen v⟩
  · rintro ⟨hlow, hhigh⟩
    have hlt : k - 1 < minlen v := (Nat.pow_lt_pow_iff_right (a := 100) (by decide)).1 <|
      hlow.trans_lt (lt_hundred_pow_minlen v)
    have hle : minlen v ≤ k := (minlen_le_iff hk).2 hhigh
    omega

/-! ### The capacity from which nothing overflows -/

theorem le_maxval_of_nmin_le {W v n : Nat} (h : nmin W ≤ n) (hv : v < 2 ^ W) : v ≤ maxval n :=
  Nat.le_of_not_lt fun hover => Nat.not_lt.2 h (lt_nmin_of_overflow hv hover)

/-- Below `NMIN(W)` the largest value of the port overflows. -/
theorem maxval_lt_of_lt_nmin {W n : Nat} (hW : 1 ≤ W) (h : n < nmin W) : maxval n < 2 ^ W - 1 := by
  have hpos : 1 ≤ 2 ^ W - 1 := Nat.le_sub_one_of_lt (Nat.one_lt_two_pow (by omega))
  rw [nmin_eq_minlen] at h
  rw [maxval_lt_iff]
  calc 100 ^ n ≤ 100 ^ (minlen (2 ^ W - 1) - 1) := Nat.pow_le_pow_right (by decide) (Nat.le_sub_one_of_lt h)
    _ ≤ 2 ^ W - 1 := hundred_pow_pred_minlen_le _ hpos

theorem nmin_eq_iff {W k : Nat} (hW : 1 ≤ W) (hk : 1 ≤ k) :
    nmin W = k ↔ 100 ^ (k - 1) ≤ 2 ^ W - 1 ∧ 2 ^ W - 1 < 100 ^ k := by
  rw [nmin_eq_minlen, minlen_eq_iff (Nat.le_sub_one_of_lt (Nat.one_lt_two_pow (by omega))) hk]

/-! ### The statements -/

/-- Settles O8: `K(W)` by the search's specification, `LW` by that of the logarithm; the tables are computed, that of
`NMIN` from its powers of a hundred. -/
theorem derivedConstantsAreAsDefined : Obligations.DerivedConstantsAreAsDefined := by
  refine ⟨fun W => ⟨?_, fun k => le_bytesThatFit⟩, fun M hM => ⟨Nat.log2_self_le (by omega), Nat.lt_log2_self⟩,
    by decide, ?_, by decide, by decide⟩
  · rw [ten_pow_double]
    exact hundred_pow_bytesThatFit_le W
  · have hnmin : nmin 8 = 2 ∧ nmin 16 = 3 ∧ nmin 32 = 5 ∧ nmin 64 = 10 ∧ nmin 128 = 20 := by
      refine ⟨?_, ?_, ?_, ?_, ?_⟩ <;> exact (nmin_eq_iff (by decide) (by decide)).2 (by norm_num)
    simp [hnmin]

/-- Settles O9: the least length is the one of `minlen_le_iff`, and the powers of a hundred pin it. -/
theorem minimalLengthIsLeast : Obligations.MinimalLengthIsLeast :=
  fun v => ⟨⟨one_le_minlen v, (le_maxval_iff v _).2 (lt_hundred_pow_minlen v),
    fun n hn h => minlen_le_of_lt v n hn ((le_maxval_iff v n).1 h)⟩, rfl, fun _ => minlen_eq_iff⟩

/-- Settles O10: `NMIN(W)` is the minimal length of the largest value of the port. -/
theorem overflowIsPossibleExactlyBelowNmin : Obligations.OverflowIsPossibleExactlyBelowNmin :=
  fun _ _ => ⟨fun h _ => le_maxval_of_nmin_le h, maxval_lt_of_lt_nmin⟩

end Sys2Proof.Machine
end

section
/-! Proofs of the laws of the digit-pair codec (R75, R79 to R81): packing and unpacking as inverse maps. -/

namespace Sys2Proof.Machine

/-- `unpack_value` answers on the valid bytes, with ten times the tens digit plus the ones digit. -/
theorem unpackValue_eq_some_iff {b : Byte} {d : Nat} :
    unpackValue b = some d ↔ validByte b = true ∧ 10 * (b.toNat / 16) + b.toNat % 16 = d := by
  cases hb : validByte b with
  | true => simp [unpackValue_of_valid b hb]
  | false => simp [unpackValue_of_invalid b hb]

theorem packNibbles_hi_lo (b : Byte) : packNibbles (hi b) (lo b) = b := by
  apply BitVec.eq_of_toNat_eq
  rw [packNibbles_toNat, hi_toNat, lo_toNat]
  omega

theorem hi_lo_packNibbles (t o : Nibble) : hi (packNibbles t o) = t ∧ lo (packNibbles t o) = o :=
  hi_lo_eq_of_toNat_eq (packNibbles_toNat t o)

theorem validFlag_eq_one_iff (b : Byte) : validFlag b = 1 ↔ validByte b = true := by
  cases hb : validByte b <;> simp [validFlag, hb]

/-- A valid byte is the packed pair of what it unpacks to. -/
theorem pairByte_of_unpackValue {b : Byte} {d : Nat} (h : unpackValue b = some d) : d < 100 ∧ pairByte d = b := by
  obtain ⟨hvalid, rfl⟩ := unpackValue_eq_some_iff.1 h
  rw [validByte_iff] at hvalid
  have hd : 10 * (b.toNat / 16) + b.toNat % 16 < 100 := by omega
  refine ⟨hd, BitVec.eq_of_toNat_eq ?_⟩
  rw [pairByte_toNat _ hd]
  omega

/-- Packing digit pairs keeps their order. -/
theorem pairByte_toNat_lt_iff {d e : Nat} (hd : d < 100) (he : e < 100) :
    (pairByte d).toNat < (pairByte e).toNat ↔ d < e := by
  rw [pairByte_toNat d hd, pairByte_toNat e he]
  omega

/-! ### The statements -/

/-- Settles O11: the nibbles are quotient and remainder by 16; the valid bytes are counted. -/
theorem validBytesAreTheHundredDigitPairs : Obligations.ValidBytesAreTheHundredDigitPairs :=
  ⟨fun b => ⟨hi_toNat b, lo_toNat b, by simp [validByte]⟩, rfl⟩

/-- Settles O15: the arithmetic forms of the two helpers. -/
theorem helperFunctionsFollowTheirFormulas : Obligations.HelperFunctionsFollowTheirFormulas := by
  refine ⟨fun b => ?_, fun dp hdp => ?_⟩
  · simp only [← validByte_iff, unpackValue, hi_toNat, lo_toNat]
  · have hlt : dp < 100 := Nat.lt_succ_of_le hdp
    refine ⟨pairByte_toNat dp hlt, validByte_pairByte dp hlt, ?_⟩
    rw [pairByte_toNat dp hlt]
    omega

/-- Settles O16: the laws of the codec; the order is that of `pairByte`, the inverse of `unpack_value`. -/
theorem codecLawsHold : Obligations.CodecLawsHold := by
  refine ⟨hi_lo_packNibbles, packNibbles_hi_lo, fun t o => ?_, fun dp hdp => unpackValue_pairByte dp (by omega),
    fun b hb => ?_, fun b c d e hb hc => ?_⟩
  · rw [validFlag_eq_one_iff, validByte_packNibbles]
  · have hd := unpackValue_of_valid b hb
    obtain ⟨hlt, hpair⟩ := pairByte_of_unpackValue hd
    exact ⟨_, Nat.le_of_lt_succ hlt, hd, hpair⟩
  · obtain ⟨hd, rfl⟩ := pairByte_of_unpackValue hb
    obtain ⟨he, rfl⟩ := pairByte_of_unpackValue hc
    exact pairByte_toNat_lt_iff hd he

end Sys2Proof.Machine
end

section
/-! Proofs of the encoder family, continued (R92, R93, R98): an encoding grows by one digit pair at its end, so it is
the only valid sequence of its length that represents the value. -/

namespace Sys2Proof.Machine

/-! ### Truncate or pad in one form -/

/-- The three arms at once: zero bytes in front where bytes are missing, the leading bytes dropped where they are too
many. -/
theorem truncateOrPad_eq (b : ByteSeq) (n : Nat) :
    truncateOrPad b n = List.replicate (n - b.length) 0 ++ b.drop (b.length - n) := by
  rcases Nat.lt_trichotomy b.length n with h | h | h
  · simp [truncateOrPad_of_length_lt h, Nat.sub_eq_zero_of_le h.le]
  · simp [truncateOrPad_of_length_eq h, h]
  · simp [truncateOrPad_of_lt_length h, Nat.sub_eq_zero_of_le h.le]

theorem truncateOrPad_of_length_le {b : ByteSeq} {n : Nat} (h : b.length ≤ n) :
    truncateOrPad b n = List.replicate (n - b.length) 0 ++ b := by
  rw [truncateOrPad_eq, Nat.sub_eq_zero_of_le h, List.drop_zero]

theorem answers_resize {s : State} {b : ByteSeq} {n : Nat} (hb : b.length ≤ s.params.M) (hn : n ≤ s.params.M) :
    Answers (.resize b n) s (okSeq s.params.W s.params.M (truncateOrPad b n)) := by
  rw [answers_iff, exec, execResize, requireSeq_of_le hb, requireCount_of_le hn, replySeq_eq]

/-! ### An encoding, digit pair by digit pair -/

theorem encodeSeq_zero {v : Nat} (h : v < 100 ^ 0) : encodeSeq v 0 = [] :=
  List.length_eq_zero_iff.1 (length_encodeSeq v 0 h)

/-- The last byte of an encoding is the lowest digit pair, the bytes before it encode the rest of the value. -/
theorem encodeSeq_succ {v n : Nat} (h : v < 100 ^ (n + 1)) :
    encodeSeq v (n + 1) = encodeSeq (v / 100) n ++ [pairByte (v % 100)] := by
  have hrest : v / 100 < 100 ^ n := Nat.div_lt_of_lt_mul (by rwa [← pow_succ'])
  have hlen := length_encodeSeq (v / 100) n hrest
  refine List.ext_getElem? fun i => ?_
  rcases Nat.lt_trichotomy i n with hi | rfl | hi
  · rw [List.getElem?_append_left (by omega), getElem?_encodeSeq h (by omega), getElem?_encodeSeq hrest hi,
      Nat.div_div_eq_div_mul, ← pow_succ', show n - 1 - i + 1 = n + 1 - 1 - i by omega]
  · simp [getElem?_encodeSeq h, hlen]
  · rw [List.getElem?_eq_none (by rw [length_encodeSeq v _ h]; omega), List.getElem?_eq_none (by simp; omega)]

theorem allValid_encodeSeq {v n : Nat} (h : v < 100 ^ n) : AllValid (encodeSeq v n) := by
  induction n generalizing v with
  | zero => rw [encodeSeq_zero h]; exact allValid_nil
  | succ n ih =>
    have hlow := validByte_pairByte (v % 100) (Nat.mod_lt _ (by decide))
    rw [encodeSeq_succ h, allValid_append, allValid_cons]
    exact ⟨ih (Nat.div_lt_of_lt_mul (by rwa [← pow_succ'])), (validByte_iff _).1 hlow, allValid_nil⟩

/-- The byte at the end of a sequence is the lowest digit pair of what it represents. -/
theorem represents_snoc (b : ByteSeq) (x : Byte) :
    represents (b ++ [x]) = 100 * represents b + (10 * (x.toNat / 16) + x.toNat % 16) := by
  rw [represents_append, represents_cons]
  simp [Nat.mul_comm]

theorem represents_snoc_pairByte (b : ByteSeq) {d : Nat} (h : d < 100) :
    represents (b ++ [pairByte d]) = 100 * represents b + d := by
  rw [represents_snoc, pairByte_toNat d h]
  omega

theorem portSum_snoc (b : ByteSeq) (x : Byte) : portSum (b ++ [x]) = 256 * portSum b + x.toNat := by
  rw [portSum_append, portSum_cons]
  simp [Nat.mul_comm]

theorem represents_encodeSeq {v n : Nat} (h : v < 100 ^ n) : represents (encodeSeq v n) = v := by
  induction n generalizing v with
  | zero =>
    rw [encodeSeq_zero h, represents_nil]
    exact (Nat.lt_one_iff.1 h).symm
  | succ n ih =>
    rw [encodeSeq_succ h, represents_snoc_pairByte _ (Nat.mod_lt _ (by decide)),
      ih (Nat.div_lt_of_lt_mul (by rwa [← pow_succ'])), Nat.div_add_mod]

/-- A valid sequence is the encoding, at its own length, of what it represents. -/
theorem encodeSeq_represents {b : ByteSeq} (h : AllValid b) : encodeSeq (represents b) b.length = b := by
  induction b using List.reverseRecOn with
  | nil => rfl
  | append_singleton b x ih =>
    have hlt := represents_lt _ h
    obtain ⟨hb, hx⟩ := (allValid_append b [x]).1 h
    obtain ⟨hd, hpair⟩ := pairByte_of_unpackValue
      (unpackValue_of_valid x ((validByte_iff x).2 (hx x List.mem_cons_self)))
    rw [List.length_append, List.length_singleton] at hlt ⊢
    rw [encodeSeq_succ hlt, represents_snoc, Nat.mul_add_mod, Nat.mod_eq_of_lt hd, Nat.mul_add_div (by decide),
      Nat.div_eq_of_lt hd, Nat.add_zero, ih hb, hpair]

/-- A wider encoding is the narrower one with zero bytes in front, which `truncate_or_pad` makes of it. -/
theorem truncateOrPad_encodeSeq {v m n : Nat} (h : v < 100 ^ m) (hmn : m ≤ n) :
    truncateOrPad (encodeSeq v m) n = encodeSeq v n := by
  have hlen := length_encodeSeq v m h
  have hvalid : AllValid (truncateOrPad (encodeSeq v m) n) := by
    rw [truncateOrPad_of_length_le (hlen.trans_le hmn), allValid_append]
    exact ⟨allValid_zeros _, allValid_encodeSeq h⟩
  have hvalue : represents (truncateOrPad (encodeSeq v m) n) = v := by
    rw [truncateOrPad_of_length_le (hlen.trans_le hmn), represents_append, represents_zeros, Nat.zero_mul, Nat.zero_add,
      represents_encodeSeq h]
  rw [← encodeSeq_represents hvalid, hvalue, length_truncateOrPad]

/-- On values of one length, the port value of the encoding grows with the value. -/
theorem portSum_encodeSeq_lt {u v n : Nat} (huv : u < v) (h : v < 100 ^ n) :
    portSum (encodeSeq u n) < portSum (encodeSeq v n) := by
  induction n generalizing u v with
  | zero => exact absurd h (by simp; omega)
  | succ n ih =>
    have hrest : v / 100 < 100 ^ n := Nat.div_lt_of_lt_mul (by rwa [← pow_succ'])
    have hbyte := (pairByte (u % 100)).isLt
    rw [encodeSeq_succ h, encodeSeq_succ (huv.trans h), portSum_snoc, portSum_snoc]
    rcases Nat.lt_or_eq_of_le (Nat.div_le_div_right (c := 100) huv.le) with hlt | heq
    · have := ih hlt hrest
      omega
    · have hlow := (pairByte_toNat_lt_iff (Nat.mod_lt u (by decide)) (Nat.mod_lt v (by decide))).2
        (show u % 100 < v % 100 by omega)
      rw [heq]
      omega

/-- The largest value of `n` digit pairs is `n` bytes of `0x99`. -/
theorem encodeSeq_hundred_pow_pred (n : Nat) : encodeSeq (100 ^ n - 1) n = List.replicate n 0x99 := by
  induction n with
  | zero => rfl
  | succ n ih =>
    have hpos : 1 ≤ 100 ^ n := Nat.one_le_pow _ _ (by decide)
    have hdiv : (100 ^ (n + 1) - 1) / 100 = 100 ^ n - 1 := by
      rw [pow_succ]
      omega
    have hmod : (100 ^ (n + 1) - 1) % 100 = 99 := by
      rw [pow_succ]
      omega
    rw [encodeSeq_succ (by rw [pow_succ]; omega), hdiv, hmod, ih, List.replicate_succ']
    rfl

/-! ### The length of the loop -/

/-- The loop turns once for each base-100 digit. -/
theorem length_pushPairs_eq {v p : Nat} (hp : 1 ≤ p) (hlow : 100 ^ (p - 1) ≤ v) (hhigh : v < 100 ^ p) :
    (pushPairs v v).length = p := by
  have hle : (pushPairs v v).length ≤ p := length_pushPairs_le v v p hhigh
  have hlt : p - 1 < (pushPairs v v).length := by
    rw [lt_length_pushPairs_iff le_rfl]
    exact Nat.ne_of_gt (Nat.div_pos hlow (by positivity))
  omega

/-! ### The statements -/

/-- Settles O18: the bytes of `encodeSeq v n`, one by one. -/
theorem encodeHasItsClosedForm : Obligations.EncodeHasItsClosedForm := by
  intro s v n hv hn h
  have hfit : v < 100 ^ n := (le_maxval_iff v n).1 h
  have hlen := length_encodeSeq v n hfit
  exact ⟨encodeSeq v n, answers_encode hv hn h, hlen, okSeq_seqOut _ (hlen.trans_le hn),
    fun i hi => getElem?_encodeSeq hfit hi⟩

/-- Settles O19: the loop turns once for each base-100 digit, and `NMIN(W)` digits hold every value of the port. -/
theorem encoderLoopIsBounded : Obligations.EncoderLoopIsBounded :=
  ⟨fun _ _ _ => length_pushPairs_eq, rfl, fun v n h => length_pushPairs_le v v n ((le_maxval_iff v n).1 h),
    fun _ v hv => length_pushPairs_le v v _ ((le_maxval_iff v _).1 (le_maxval_of_nmin_le le_rfl hv))⟩

/-- Settles O20: `maxval n` is the bound of the check, and its encoding is `n` bytes of `0x99`. -/
theorem encodeOverflowBoundary : Obligations.EncodeOverflowBoundary := by
  intro s n hn
  refine ⟨fun hv => answers_encode_overflow hv hn ?_, fun hv => ?_⟩
  · rw [maxval_lt_iff, ten_pow_double]
  · rw [← encodeSeq_hundred_pow_pred, ← ten_pow_double]
    exact answers_encode hv hn le_rfl

/-- Settles O22: validity and value of `encodeSeq v n`, at `n` and at `minlen v`. -/
theorem encoderOutputIsValidAndRepresentsItsInput : Obligations.EncoderOutputIsValidAndRepresentsItsInput := by
  refine fun s v hv => ⟨fun n hn h => ?_, fun h => ?_⟩
  · have hfit : v < 100 ^ n := (le_maxval_iff v n).1 h
    exact ⟨_, answers_encode hv hn h, allValid_encodeSeq hfit, length_encodeSeq v n hfit, represents_encodeSeq hfit⟩
  · have hfit := lt_hundred_pow_minlen v
    exact ⟨_, answers_encmin hv h, allValid_encodeSeq hfit, length_encodeSeq v _ hfit, represents_encodeSeq hfit⟩

/-- Settles O23: `truncate_or_pad` turns the encoding at one length into the encoding at any larger one. -/
theorem encodingsOfOneValueDifferByZeroPadding : Obligations.EncodingsOfOneValueDifferByZeroPadding := by
  intro s v n hv hn h
  have hfit : v < 100 ^ n := (le_maxval_iff v n).1 h
  have hlen := length_encodeSeq v n hfit
  refine ⟨encodeSeq v n, answers_encode hv hn h, hlen, fun n' hlt hn' => ?_, fun hmin => ?_⟩
  · have hpad := truncateOrPad_of_length_le (hlen.trans_le hlt.le)
    have hwide : v ≤ maxval n' := (le_maxval_iff v n').2 (hfit.trans_le (Nat.pow_le_pow_right (by decide) hlt.le))
    rw [hlen] at hpad
    rw [← hpad]
    refine ⟨?_, answers_resize (hlen.trans_le hn) hn'⟩
    rw [truncateOrPad_encodeSeq hfit hlt.le]
    exact answers_encode hv hn' hwide
  · have hmin' := lt_hundred_pow_minlen v
    have hcap : v ≤ maxval s.params.M := (le_maxval_iff v _).2 (hfit.trans_le (Nat.pow_le_pow_right (by decide) hn))
    have hlen' := length_encodeSeq v _ hmin'
    refine ⟨encodeSeq v (minlen v), hlen', answers_encmin hv hcap, ?_⟩
    rw [← truncateOrPad_encodeSeq hmin' hmin]
    exact answers_resize (hlen'.trans_le (hmin.trans hn)) hn

/-- Settles O24: both answers are OK, and the port value of an encoding grows with the value. -/
theorem encodeIsStrictlyIncreasing : Obligations.EncodeIsStrictlyIncreasing := by
  intro s u v n huv hv hn h
  have hfit : v < 100 ^ n := (le_maxval_iff v n).1 h
  refine ⟨_, _, answers_encode (huv.trans hv) hn (huv.le.trans h), answers_encode hv hn h, rfl, rfl, ?_⟩
  rw [okSeq_seqOut _ ((length_encodeSeq u n (huv.trans hfit)).trans_le hn),
    okSeq_seqOut _ ((length_encodeSeq v n hfit).trans_le hn)]
  exact portSum_encodeSeq_lt huv hfit

end Sys2Proof.Machine
end

section
/-! Proofs of the decoder family, continued (R65, R108 to R111): the accumulator's bound, the lossless and the lossy
answer, the round trip, and the two shorthands of R65. -/

namespace Sys2Proof.Machine

/-! ### The trailing bytes -/

theorem length_drop_length_sub (b : ByteSeq) (n : Nat) : (b.drop (b.length - n)).length = min b.length n := by
  rw [List.length_drop]
  omega

/-- A positional value with digits below `B`: the last `n` bytes, or all when there are fewer, have the value modulo
`B^n`. -/
theorem positional_drop {F : ByteSeq → Nat} {B : Nat} {b : ByteSeq} (hB : 0 < B)
    (happend : ∀ a c, F (a ++ c) = F a * B ^ c.length + F c) (hlt : ∀ k, F (b.drop k) < B ^ (b.drop k).length)
    (n : Nat) : F (b.drop (b.length - n)) = F b % B ^ n := by
  have hlow := hlt (b.length - n)
  rw [length_drop_length_sub] at hlow
  rcases Nat.le_total b.length n with hle | hle
  · rw [Nat.min_eq_left hle, Nat.sub_eq_zero_of_le hle, List.drop_zero] at hlow
    rw [Nat.sub_eq_zero_of_le hle, List.drop_zero, Nat.mod_eq_of_lt (hlow.trans_le (Nat.pow_le_pow_right hB hle))]
  · rw [Nat.min_eq_right hle] at hlow
    conv_rhs => rw [← List.take_append_drop (b.length - n) b]
    rw [happend, length_drop_length_sub, Nat.min_eq_right hle, Nat.mul_add_mod_self_right, Nat.mod_eq_of_lt hlow]

theorem represents_drop {b : ByteSeq} (h : AllValid b) (n : Nat) :
    represents (b.drop (b.length - n)) = represents b % 100 ^ n :=
  positional_drop (by decide) represents_append (fun k => represents_lt _ (allValid_drop b k h)) n

theorem portSum_drop (b : ByteSeq) (n : Nat) : portSum (b.drop (b.length - n)) = portSum b % 256 ^ n :=
  positional_drop (by decide) portSum_append (fun k => portSum_lt (b.drop k)) n

/-! ### The lossless and the lossy answer -/

section
variable {s : State} {b : ByteSeq} (hb : b.length ≤ s.params.M)
include hb

theorem answers_decode_lossless (hlen : b.length ≤ bytesThatFit s.params.W) (h : AllValid b) :
    Answers (.decode b) s (okInteger s.params.W s.params.M (represents b) false) := by
  have hall : last b (consumed s.params.W b.length) = b := by
    rw [consumed, Nat.min_eq_left hlen, last, Nat.sub_self, List.drop_zero]
  have hanswers := answers_decode hb (by rwa [hall])
  rwa [hall, decide_eq_false (Nat.not_lt.2 hlen)] at hanswers

theorem answers_decode_lossy (hlen : bytesThatFit s.params.W < b.length)
    (h : AllValid (b.drop (b.length - bytesThatFit s.params.W))) :
    Answers (.decode b) s
      (okInteger s.params.W s.params.M (represents (b.drop (b.length - bytesThatFit s.params.W))) true) := by
  have hlast : last b (consumed s.params.W b.length) = b.drop (b.length - bytesThatFit s.params.W) := by
    rw [consumed, Nat.min_eq_right hlen.le, last]
  have hanswers := answers_decode hb (by rwa [hlast])
  rwa [hlast, decide_eq_true hlen] at hanswers

end

theorem okInteger_binOut {W M v : Nat} {lossy : Bool} (h : v < 2 ^ W) : (okInteger W M v lossy).binOut.toNat = v := by
  simp [okInteger, Nat.mod_eq_of_lt h]

theorem firstBadFrom_singleton {b : Byte} (h : unpackValue b = none) : FirstBadFrom [b] 0 0 := by
  refine ⟨le_rfl, Nat.one_pos, fun hvalid => ?_, fun j _ hj => absurd hj (Nat.not_lt_zero j)⟩
  rw [List.getD_cons_zero] at hvalid
  rw [unpackValue_of_valid b ((validByte_iff b).2 hvalid)] at h
  cases h

theorem represents_pairByte {d : Nat} (h : d < 100) : represents [pairByte d] = d := by
  simpa using represents_snoc_pairByte [] h

theorem allValid_pairByte {d : Nat} (h : d < 100) : AllValid [pairByte d] :=
  (allValid_cons _ _).2 ⟨(validByte_iff _).1 (validByte_pairByte d h), allValid_nil⟩

/-! ### The statements -/

/-- Settles O28: a fold that succeeds has met valid bytes only, so the accumulator is what they represent. -/
theorem decoderAccumulatorNeverExceedsItsWidth : Obligations.DecoderAccumulatorNeverExceedsItsWidth := by
  intro b i acc h
  have hvalid := allValid_of_foldPairs b i 0 acc h
  obtain rfl : represents b = acc := by
    rw [foldPairs_of_allValid b hvalid, Nat.zero_mul, Nat.zero_add] at h
    exact Except.ok.inj h
  exact ⟨Nat.le_sub_one_of_lt (represents_lt b hvalid), fun W hlen => represents_lt_two_pow hvalid hlen⟩

/-- Settles O29: all bytes are consumed, and `K(W)` of them stay within the port. -/
theorem losslessDecodeGivesTheWholeInteger : Obligations.LosslessDecodeGivesTheWholeInteger :=
  fun _ _ hb hlen h => ⟨answers_decode_lossless hb hlen h, okInteger_binOut (represents_lt_two_pow h hlen)⟩

/-- Settles O30: the value is what the last `K(W)` bytes represent, which are the bytes `RESIZE` keeps. -/
theorem lossyDecodeGivesTheLowDigits : Obligations.LossyDecodeGivesTheLowDigits := by
  intro s b hb hlen h
  have hcut : (b.drop (b.length - bytesThatFit s.params.W)).length = bytesThatFit s.params.W := by
    rw [length_drop_length_sub, Nat.min_eq_right hlen.le]
  refine ⟨_, represents_lt_two_pow h hcut.le, answers_decode_lossy hb hlen h, fun hvalid => ?_, _, hcut, ?_, ?_⟩
  · rw [ten_pow_double, represents_drop hvalid]
  · rw [← truncateOrPad_of_lt_length hlen]
    exact answers_resize hb (hlen.le.trans hb)
  · exact answers_decode_lossless (hcut.trans_le (hlen.le.trans hb)) hcut.le h

/-- Settles O31: the encoding is valid and represents the value, so both answers of `DECODE` apply to it. -/
theorem decodeOfEncodeReturnsTheInteger : Obligations.DecodeOfEncodeReturnsTheInteger := by
  intro s v n hv hn h
  have hfit : v < 100 ^ n := (le_maxval_iff v n).1 h
  have hlen := length_encodeSeq v n hfit
  have hvalid := allValid_encodeSeq hfit
  have hvalue := represents_encodeSeq hfit
  have hb := hlen.trans_le hn
  refine ⟨encodeSeq v n, answers_encode hv hn h, fun hle => ?_, fun hlt => ?_⟩
  · have hanswers := answers_decode_lossless hb (hlen.trans_le hle) hvalid
    rwa [hvalue] at hanswers
  · have hanswers := answers_decode_lossy hb (hlt.trans_eq hlen.symm) (allValid_drop _ _ hvalid)
    rwa [represents_drop hvalid, hvalue, ← ten_pow_double] at hanswers

/-- Settles O25: one byte is a sequence that `DECODE` consumes whole, and one digit pair is a sequence that `ENCODE`
gives at length 1. -/
theorem aliasesExpandAsStated : Obligations.AliasesExpandAsStated := by
  intro s
  have hone (x : Byte) : [x].length ≤ s.params.M := s.params.hM
  refine ⟨fun b hK => ⟨fun d hd => ?_, fun hnone => ?_⟩,
    fun dp hv => ⟨fun h => ?_, answers_encode_overflow hv s.params.hM⟩⟩
  · obtain ⟨hlt, rfl⟩ := pairByte_of_unpackValue hd
    have hanswers := answers_decode_lossless (hone _) hK (allValid_pairByte hlt)
    rwa [represents_pairByte hlt] at hanswers
  · exact answers_decode_invalid (hone b) (by
      rw [consumed, List.length_singleton, Nat.min_eq_left hK]
      exact firstBadFrom_singleton hnone)
  · have hlt : dp < 100 := Nat.lt_succ_of_le h
    have hencode := encodeSeq_represents (allValid_pairByte hlt)
    rw [represents_pairByte hlt, List.length_singleton] at hencode
    rw [← hencode]
    exact answers_encode hv s.params.hM h

end Sys2Proof.Machine
end

section
/-! Proofs of the sequence family, continued (R116 to R118, R120, R123), and of the statuses (R134) and refusals (R63)
of the nine operations. -/

namespace Sys2Proof.Machine

/-! ### What truncating or padding does to a sequence -/

theorem portSum_truncateOrPad (b : ByteSeq) (n : Nat) : portSum (truncateOrPad b n) = portSum b % 256 ^ n := by
  rw [truncateOrPad_eq, portSum_append, portSum_zeros, Nat.zero_mul, Nat.zero_add, portSum_drop]

theorem represents_truncateOrPad {b : ByteSeq} (h : AllValid b) (n : Nat) :
    represents (truncateOrPad b n) = represents b % 100 ^ n := by
  rw [truncateOrPad_eq, represents_append, represents_zeros, Nat.zero_mul, Nat.zero_add, represents_drop h]

/-- The padding is valid, so validity is that of the bytes kept. -/
theorem allValid_truncateOrPad_iff (b : ByteSeq) (n : Nat) :
    AllValid (truncateOrPad b n) ↔ AllValid (b.drop (b.length - n)) := by
  rw [truncateOrPad_eq, allValid_append, and_iff_right (allValid_zeros _)]

/-- A step in between that keeps the last `n` bytes, or all of the input, changes nothing. -/
theorem truncateOrPad_truncateOrPad {b : ByteSeq} {n n' : Nat} (h : n ≤ n' ∨ b.length ≤ n') :
    truncateOrPad (truncateOrPad b n') n = truncateOrPad b n := by
  rw [truncateOrPad_eq (truncateOrPad b n'), length_truncateOrPad, truncateOrPad_eq b n', truncateOrPad_eq b n,
    List.drop_append, List.drop_replicate, List.drop_drop, List.length_replicate, ← List.append_assoc,
    List.replicate_append_replicate]
  congr 2
  · omega
  · omega

/-! ### Valid or first invalid byte -/

/-- A sequence is valid, or its validation loop finds a first invalid byte. -/
theorem allValid_or_firstBad (b : ByteSeq) : AllValid b ∨ ∃ i, FirstBadFrom b 0 i := by
  cases h : firstInvalid b with
  | none => exact .inl ((firstInvalid_eq_none b).1 h)
  | some i => exact .inr ⟨i, (firstInvalid_eq_some b i).1 h⟩

theorem not_allValid_of_firstBad {b : ByteSeq} {i : Nat} (h : FirstBadFrom b 0 i) : ¬AllValid b := by
  rw [← firstInvalid_eq_none, (firstInvalid_eq_some b i).2 h]
  exact Option.some_ne_none i

/-- The first invalid byte of the bytes left when `a` are dropped is one of the whole sequence, its index counted from
the start. -/
theorem FirstBadFrom.of_drop {b : ByteSeq} {a i : Nat} (h : FirstBadFrom (b.drop a) 0 i) :
    FirstBadFrom b a (a + i) := by
  obtain ⟨-, hlen, hbad, hgood⟩ := h
  have hgetD : ∀ j, (b.drop a).getD j 0 = b.getD (a + j) 0 := fun j => by simp [List.getD_eq_getElem?_getD]
  rw [List.length_drop] at hlen
  refine ⟨Nat.le_add_right a i, by omega, by rwa [← hgetD], fun j haj hji => ?_⟩
  have hj := hgood (j - a) (Nat.zero_le _) (by omega)
  rwa [hgetD, Nat.add_sub_cancel' haj] at hj

/-- How `DECODE` answers: OK exactly when the bytes it consumes are valid. -/
theorem exists_answers_decode {s : State} {b : ByteSeq} (hb : b.length ≤ s.params.M) :
    ∃ r : Response s.params.W s.params.M, Answers (.decode b) s r ∧ (r.status = 0 ∨ r.status = 2) ∧
      (r.status = 0 ↔ AllValid (b.drop (b.length - min b.length (bytesThatFit s.params.W)))) := by
  rcases allValid_or_firstBad (b.drop (b.length - min b.length (bytesThatFit s.params.W))) with h | ⟨i, hi⟩
  · exact ⟨_, answers_decode hb h, .inl rfl, iff_of_true rfl h⟩
  · exact ⟨_, answers_decode_invalid hb hi.of_drop, .inr rfl,
      iff_of_false zero_ne_two_status.symm (not_allValid_of_firstBad hi)⟩

/-! ### Refusals -/

/-- An outcome that refuses an operand under the name of the port that cannot carry it. -/
def RefusedByPort (s : State) (o : Host.Outcome State Fault Refusal) : Prop :=
  ∃ ρ, o = .refused ρ ∧
    ((∃ v, ρ = .integerAbovePort v ∧ 2 ^ s.params.W ≤ v) ∨
      (∃ n, ρ = .countAboveCapacity n ∧ s.params.M < n) ∨ ∃ l, ρ = .lengthAboveCapacity l ∧ s.params.M < l)

section
variable {s : State} {k : Host.Outcome State Fault Refusal}

theorem RefusedByPort.requireInteger {v : Nat} (h : v < 2 ^ s.params.W → RefusedByPort s k) :
    RefusedByPort s (requireInteger v s k) := by
  rcases Nat.lt_or_ge v (2 ^ s.params.W) with hlt | hle
  · rw [requireInteger_of_lt hlt]
    exact h hlt
  · exact ⟨_, requireInteger_of_le hle k, .inl ⟨v, rfl, hle⟩⟩

theorem RefusedByPort.requireCount {n : Nat} (h : n ≤ s.params.M → RefusedByPort s k) :
    RefusedByPort s (requireCount n s k) := by
  rcases Nat.lt_or_ge s.params.M n with hlt | hle
  · exact ⟨_, requireCount_of_lt hlt k, .inr (.inl ⟨n, rfl, hlt⟩)⟩
  · rw [requireCount_of_le hle]
    exact h hle

theorem RefusedByPort.requireSeq {b : ByteSeq} (h : b.length ≤ s.params.M → RefusedByPort s k) :
    RefusedByPort s (requireSeq b s k) := by
  rcases Nat.lt_or_ge s.params.M b.length with hlt | hle
  · exact ⟨_, requireSeq_of_lt hlt k, .inr (.inr ⟨b.length, rfl, hlt⟩)⟩
  · rw [requireSeq_of_le hle]
    exact h hle

end

/-! ### The statements -/

/-- Settles O32: the sequence is `truncateOrPad b n`, in its three arms, and its port value is cut modulo `256^n`. -/
theorem resizeTruncatesOrPads : Obligations.ResizeTruncatesOrPads := by
  refine ⟨fun _ _ _ hop hlen hn => decode_eq_operands_of_op_eq .resize hop ⟨fun _ => hlen, fun _ => hn⟩,
    fun s b n hb hn => ?_⟩
  have hlen := length_truncateOrPad b n
  refine ⟨truncateOrPad b n, answers_resize hb hn, truncateOrPad_of_length_eq, truncateOrPad_of_lt_length,
    truncateOrPad_of_length_lt, ?_, ?_⟩
  · rw [okSeq_lenOut _ (hlen.trans_le hn), hlen]
  · rw [okSeq_seqOut _ (hlen.trans_le hn), portSum_truncateOrPad]

/-- Settles O33: the laws are those of zero bytes before the bytes kept (`truncateOrPad_eq`). -/
theorem resizeLawsHold : Obligations.ResizeLawsHold := by
  intro b n
  refine ⟨length_truncateOrPad b n, fun n' => truncateOrPad_truncateOrPad, fun h => ⟨?_, ?_, fun hsmall => ?_⟩, ?_⟩
  · exact (allValid_truncateOrPad_iff b n).2 (allValid_drop b _ h)
  · exact represents_truncateOrPad h n
  · have hfit : represents b < 100 ^ n := by
      rcases hsmall with hval | hlen
      · exact (le_maxval_iff _ n).1 hval
      · exact (represents_lt b h).trans_le (Nat.pow_le_pow_right (by decide) hlen)
    rw [represents_truncateOrPad h, Nat.mod_eq_of_lt hfit]
  · rw [allValid_truncateOrPad_iff, show b.length - min b.length n = b.length - n by omega]

/-- Settles O36: the validation loop of `FROMBYTES` and `FROMBYTESN` is the same, and fails where `VALIDATE` answers
0. -/
theorem frombytesnIsFrombytesThenResize : Obligations.FrombytesnIsFrombytesThenResize := by
  intro s b n hb hn
  rcases allValid_or_firstBad b with h | ⟨i, hi⟩
  · refine .inl ⟨fun x hx => ?_, answers_frombytes hb h, ?_, _, answers_resize hb hn, answers_frombytesn hb hn h⟩
    · rw [← (validFlag_eq_one_iff x).2 ((validByte_iff x).2 (h x hx))]
      exact answers_validate x s
    · exact ⟨_, answers_decode hb (allValid_drop b _ h), rfl⟩
  · obtain ⟨-, hlt, hbad, -⟩ := id hi
    rw [List.getD_eq_getElem _ _ hlt] at hbad
    refine .inr ⟨⟨b[i], List.getElem_mem hlt, ?_⟩, i, answers_frombytes_invalid hb hi,
      answers_frombytesn_invalid hb hn hi⟩
    have hflag : validFlag b[i] = 0 := by rw [validFlag_eq_ite, if_neg hbad]
    rw [← hflag]
    exact answers_validate b[i] s

/-- Settles O37: one row of the table for each operation, from its replies. -/
theorem statusesAreThoseOfTheTable : Obligations.StatusesAreThoseOfTheTable := by
  intro s
  refine ⟨fun t o => ⟨_, answers_pack t o s, rfl⟩, fun b => ⟨_, answers_unpack b s, rfl⟩,
    fun b => ⟨_, answers_validate b s, rfl⟩, fun v n hv hn => ?_, fun v hv => ?_, fun b hb => exists_answers_decode hb,
    fun b n hb hn => ⟨_, answers_resize hb hn, rfl⟩, fun b hb => ?_, fun b n hb hn => ?_⟩
  · rcases Nat.lt_or_ge (maxval n) v with h | h
    · exact ⟨_, answers_encode_overflow hv hn h, (if_neg (Nat.not_le.2 h)).symm⟩
    · exact ⟨_, answers_encode hv hn h, (if_pos h).symm⟩
  · rcases Nat.lt_or_ge (maxval s.params.M) v with h | h
    · exact ⟨_, answers_encmin_overflow hv h, (if_neg (Nat.not_le.2 h)).symm⟩
    · exact ⟨_, answers_encmin hv h, (if_pos h).symm⟩
  · rcases allValid_or_firstBad b with h | ⟨i, hi⟩
    · exact ⟨_, answers_frombytes hb h, .inl rfl, iff_of_true rfl h⟩
    · exact ⟨_, answers_frombytes_invalid hb hi, .inr rfl,
        iff_of_false zero_ne_two_status.symm (not_allValid_of_firstBad hi)⟩
  · rcases allValid_or_firstBad b with h | ⟨i, hi⟩
    · exact ⟨_, answers_frombytesn hb hn h, .inl rfl, iff_of_true rfl h⟩
    · exact ⟨_, answers_frombytesn_invalid hb hn hi, .inr rfl,
        iff_of_false zero_ne_two_status.symm (not_allValid_of_firstBad hi)⟩

/-- Settles O39: past all of its operand checks an instruction would be well formed, so one of them refuses. -/
theorem illFormedInstructionsAreRefused : Obligations.IllFormedInstructionsAreRefused := by
  intro s i hwf
  change RefusedByPort s (exec i s)
  cases i <;> simp only [Instr.wellFormed, fitsInteger, fitsSeq, fitsCount, ← Bool.not_eq_true, Bool.and_eq_true,
    decide_eq_true_eq, not_true] at hwf
  case encode v n => exact .requireInteger fun hv => .requireCount fun hn => absurd ⟨hv, hn⟩ hwf
  case encmin v => exact .requireInteger fun hv => absurd hv hwf
  case decode b | frombytes b => exact .requireSeq fun hb => absurd hb hwf
  case resize b n | frombytesn b n => exact .requireSeq fun hb => .requireCount fun hn => absurd ⟨hb, hn⟩ hwf

end Sys2Proof.Machine
end

section
/-! Proofs of the signal-level wrapper (R28, R30, R45, R46, R150, R157, R160): what one edge makes of the line of
pending slots, what every edge keeps, and which slot is presented after `LAT` edges. -/

namespace Sys2Proof.Machine

/-! ### One edge -/

/-- The end of an edge that puts the slot `x` behind the pending ones: the oldest slot of that line is presented and the
requester moves on; `f` is the new value of the counter. -/
def State.shift (s : State) (x : Option (Response s.params.W s.params.M)) (f : Nat) : State :=
  { s with
    inputs := s.later.headD (Inputs.idle s.params.W s.params.M)
    later := s.later.tail
    pending := (s.pending ++ [x]).tail
    rsp := (s.pending ++ [x]).headD none
    free := f }

section
variable {s : State}

theorem finishEdge_acceptNothing (s : State) : s.acceptNothing.finishEdge = s.shift none s.free :=
  State.finishEdge_eq _

theorem finishEdge_accept (s : State) (r : Response s.params.W s.params.M) :
    (s.accept r).finishEdge = s.shift (some r) s.free :=
  State.finishEdge_eq _

theorem finishEdge_acceptMalformed (s : State) : s.acceptMalformed.finishEdge =
    s.shift (Config.malformedSlot s.params.W s.params.M s.inputs.req s.free) (s.free + 1) :=
  State.finishEdge_eq _

/-- The line splits into the slot presented and the slots still pending. -/
theorem headD_cons_tail_append {α : Type} (l : List (Option α)) (x : Option α) :
    (l ++ [x]).headD none :: (l ++ [x]).tail = l ++ [x] := by
  cases l <;> rfl

theorem edgeGives_shift (s : State) (x : Option (Response s.params.W s.params.M)) : EdgeGives s (s.shift x s.free) x :=
  ⟨_, _, headD_cons_tail_append _ _, rfl⟩

/-! The four edges, each as a rule of `step`. -/

theorem step_of_rst (h : s.inputs.rst = true) : step s = .next s.resetEdge := by
  rw [step, if_pos h]

theorem step_of_no_request (hrst : s.inputs.rst = false) (hv : s.inputs.reqValid = false) :
    step s = .next (s.shift none s.free) := by
  simp [step, hrst, hv, finishEdge_acceptNothing]

section
variable (hrst : s.inputs.rst = false) (hv : s.inputs.reqValid = true) {i : Instr} (hi : decode s.inputs.req = .ok i)
include hrst hv hi

theorem step_of_exec_next {t : State} (ht : exec i s = .next t) : step s = .next t.finishEdge := by
  simp [step, hrst, hv, State.fetch, hi, ht]

theorem step_of_exec_refused {ρ : Refusal} (hρ : exec i s = .refused ρ) : step s = .refused ρ := by
  simp [step, hrst, hv, State.fetch, hi, hρ]

theorem step_of_answers {r : Response s.params.W s.params.M} (hr : Answers i s r) :
    step s = .next (s.shift (some r) s.free) := by
  rw [← finishEdge_accept]
  exact step_of_exec_next hrst hv hi hr

end

theorem step_of_malformed (hrst : s.inputs.rst = false) (hv : s.inputs.reqValid = true)
    (hm : wellFormedRequest s.inputs.req = false) :
    step s = .next (s.shift (Config.malformedSlot s.params.W s.params.M s.inputs.req s.free) (s.free + 1)) := by
  rw [← finishEdge_acceptMalformed]
  cases hi : decode s.inputs.req with
  | ok i => exact absurd ((wellFormedRequest_iff _).2 ⟨i, hi⟩) (by simp [hm])
  | error e => simp [step, hrst, hv, State.fetch, hi]

/-- A well-formed request has one decoding, and it is answered. -/
theorem exists_answers_of_wellFormedRequest (s : State) (hw : wellFormedRequest s.inputs.req = true) :
    ∃ (i : Instr) (r : Response s.params.W s.params.M), decode s.inputs.req = .ok i ∧ Answers i s r ∧ r.legal := by
  obtain ⟨i, hi⟩ := (wellFormedRequest_iff _).1 hw
  obtain ⟨r, hr, hlegal⟩ := exists_answers_of_wellFormed (wellFormed_of_decode_eq_ok hi)
  exact ⟨i, r, hi, hr, hlegal⟩

/-- An edge without a reset puts one slot behind the line. -/
theorem exists_step_eq_shift (hrst : s.inputs.rst = false) : ∃ x f, step s = .next (s.shift x f) := by
  cases hv : s.inputs.reqValid with
  | false => exact ⟨_, _, step_of_no_request hrst hv⟩
  | true =>
    cases hw : wellFormedRequest s.inputs.req with
    | false => exact ⟨_, _, step_of_malformed hrst hv hw⟩
    | true =>
      obtain ⟨i, r, hi, hr, -⟩ := exists_answers_of_wellFormedRequest s hw
      exact ⟨_, _, step_of_answers hrst hv hi hr⟩

end

/-! ### What every edge keeps -/

/-- Exactly `LAT` slots are pending, and each of them and the slot presented satisfies `P`: the form of both invariants
of Safety. -/
def State.SlotsSatisfy (P : (W M : Nat) → Option (Response W M) → Prop) (s : State) : Prop :=
  s.pending.length = s.params.LAT ∧ (∀ x ∈ s.pending, P _ _ x) ∧ P _ _ s.rsp

theorem State.inv_iff (s : State) : s.Inv ↔ s.SlotsSatisfy fun _ _ x => SlotAllowed x := Iff.rfl

theorem State.allLegal_iff (s : State) : s.AllLegal ↔ s.SlotsSatisfy fun _ _ x => SlotLegal x := Iff.rfl

theorem slotLegal_of_none {W M : Nat} : SlotLegal (none : Option (Response W M)) := nofun

theorem slotLegal_some {W M : Nat} {r : Response W M} (h : r.legal) : SlotLegal (some r) := by
  intro r' hr'
  rwa [← Option.mem_some_iff.1 hr']

section
variable {P : (W M : Nat) → Option (Response W M) → Prop} {s t : State}

theorem State.SlotsSatisfy.shift (h : s.SlotsSatisfy P) {x : Option (Response s.params.W s.params.M)} (hx : P _ _ x)
    (f : Nat) : (s.shift x f).SlotsSatisfy P := by
  obtain ⟨hlen, hpending, -⟩ := h
  have hline : ∀ y ∈ (s.pending ++ [x]).headD none :: (s.pending ++ [x]).tail, P _ _ y := by
    rw [headD_cons_tail_append]
    exact List.forall_mem_append.2 ⟨hpending, List.forall_mem_singleton.2 hx⟩
  exact ⟨by simp [State.shift, hlen], fun y hy => hline y (List.mem_cons_of_mem _ hy), hline _ List.mem_cons_self⟩

theorem State.slotsSatisfy_resetEdge (s : State) (hnone : ∀ W M, P W M none) : s.resetEdge.SlotsSatisfy P := by
  rw [State.resetEdge_eq]
  refine ⟨List.length_replicate, fun x hx => ?_, hnone _ _⟩
  obtain ⟨-, rfl⟩ := List.mem_replicate.1 hx
  exact hnone _ _

/-- A step keeps what holds of every legal slot and, if it accepts a malformed request, of that request's free value. -/
theorem State.SlotsSatisfy.step (h : s.SlotsSatisfy P) (hstep : step s = .next t)
    (hlegal : ∀ (W M : Nat) (x : Option (Response W M)), SlotLegal x → P W M x)
    (hfree : s.inputs.rst = false → s.inputs.reqValid = true → wellFormedRequest s.inputs.req = false →
      P _ _ (Config.malformedSlot s.params.W s.params.M s.inputs.req s.free)) : t.SlotsSatisfy P := by
  rcases step_eq_next hstep with ⟨-, rfl⟩ | ⟨-, -, rfl⟩ | ⟨-, -, i, r, -, -, hr, rfl⟩ | ⟨hrst, hv, ⟨e, he⟩, rfl⟩
  · exact s.slotsSatisfy_resetEdge fun W M => hlegal W M none slotLegal_of_none
  · rw [finishEdge_acceptNothing]
    exact h.shift (hlegal _ _ _ slotLegal_of_none) _
  · rw [finishEdge_accept]
    exact h.shift (hlegal _ _ _ (slotLegal_some hr)) _
  · have hm : wellFormedRequest s.inputs.req = false := by
      rw [← Bool.not_eq_true, wellFormedRequest_iff, he]
      exact fun ⟨_, hi⟩ => nomatch hi
    rw [finishEdge_acceptMalformed]
    exact h.shift (hfree hrst hv hm) _

end

/-! ### Runs of edges -/

theorem run_succ_of_step {s t : State} (h : step s = .next t) (k : Nat) :
    Sys2Proof.core.run (k + 1) s = Sys2Proof.core.run k t := by
  simp only [Host.Core.run, show Sys2Proof.core.step s = .next t from h]

/-- What holds of the first `k + 1` inputs to come, and of an idle requester, holds of the next inputs and of the `k`
after them. -/
theorem next_inputs_of_take {W M k : Nat} {l : List (Inputs W M)} {Q : Inputs W M → Prop} (hidle : Q (Inputs.idle W M))
    (h : ∀ i ∈ l.take (k + 1), Q i) : Q (l.headD (Inputs.idle W M)) ∧ ∀ i ∈ l.tail.take k, Q i := by
  cases l with
  | nil => exact ⟨hidle, by simp⟩
  | cons i l => exact List.forall_mem_cons.1 h

/-- Without a reset on the way, a slot of the line is presented after as many edges as there are slots before it, and
this edge. -/
theorem run_presents_slot {s : State} {x y : Option (Response s.params.W s.params.M)} {f k : Nat}
    {before after : List (Option (Response s.params.W s.params.M))} (hlen : before.length = k)
    (hstep : step s = .next (s.shift y f)) (hline : s.pending ++ [y] = before ++ x :: after)
    (hrst : ∀ i ∈ s.later.take k, i.rst = false) :
    ∃ (inputs : Inputs s.params.W s.params.M) (later : List (Inputs s.params.W s.params.M))
      (pending : List (Option (Response s.params.W s.params.M))) (free : Nat),
      Sys2Proof.core.run (k + 1) s =
        .next { s with inputs := inputs, later := later, pending := pending, rsp := x, free := free } := by
  induction k generalizing s f with
  | zero =>
    obtain rfl := List.length_eq_zero_iff.1 hlen
    obtain rfl : (s.shift y f).rsp = x := by
      change (s.pending ++ [y]).headD none = x
      rw [hline]
      rfl
    exact ⟨_, _, _, _, run_succ_of_step hstep 0⟩
  | succ k ih =>
    obtain ⟨a, before, rfl⟩ := List.exists_cons_of_length_eq_add_one hlen
    obtain ⟨hnow, hlater⟩ := next_inputs_of_take (Q := fun i => i.rst = false) rfl hrst
    obtain ⟨y', f', hnext⟩ : ∃ (y' : Option (Response s.params.W s.params.M)) (f' : Nat),
        step (s.shift y f) = .next ((s.shift y f).shift y' f') :=
      exists_step_eq_shift (s := s.shift y f) hnow
    have hline' : (s.pending ++ [y]).tail ++ [y'] = before ++ x :: (after ++ [y']) := by
      rw [hline]
      simp
    rw [run_succ_of_step hstep]
    exact ih (s := s.shift y f) (Nat.succ.inj hlen) hnext hline' hlater

/-- The slot that an edge puts behind `LAT` pending ones is presented `LAT` edges later. -/
theorem presentedAfterLat_of_step {s : State} {x : Option (Response s.params.W s.params.M)} {f : Nat}
    (hlen : s.pending.length = s.params.LAT) (hrst : ∀ i ∈ s.later.take s.params.LAT, i.rst = false)
    (hstep : step s = .next (s.shift x f)) : PresentedAfterLat s x :=
  run_presents_slot hlen hstep rfl hrst

theorem presentedAfterLat_of_answers {s : State} {i : Instr} {r : Response s.params.W s.params.M}
    (hlen : s.pending.length = s.params.LAT) (hlater : ∀ x ∈ s.later.take s.params.LAT, x.rst = false)
    (hrst : s.inputs.rst = false) (hv : s.inputs.reqValid = true) (hi : decode s.inputs.req = .ok i)
    (hr : Answers i s r) : PresentedAfterLat s (some r) :=
  presentedAfterLat_of_step hlen hlater (step_of_answers hrst hv hi hr)

/-- The block after an edge that leaves nothing pending and nothing presented: a reset edge ends so (R150). -/
def State.cleared (s : State) : State :=
  { s with
    inputs := s.later.headD (Inputs.idle s.params.W s.params.M)
    later := s.later.tail
    pending := List.replicate s.params.LAT none
    rsp := none }

/-- With nothing pending, an edge that accepts nothing ends as a reset does. -/
theorem step_of_quiet {s : State} (hq : s.inputs.quiet) (hpending : s.pending = List.replicate s.params.LAT none) :
    step s = .next s.cleared := by
  cases hrst : s.inputs.rst with
  | true => rw [step_of_rst hrst, State.resetEdge_eq, State.cleared]
  | false =>
    have hv : s.inputs.reqValid = false := hq.resolve_left (by simp [hrst])
    have hline : s.pending ++ [none] = none :: List.replicate s.params.LAT none := by
      rw [hpending, ← List.replicate_succ', List.replicate_succ]
    rw [step_of_no_request hrst hv, State.shift, hline]
    rfl

theorem run_quiet {s : State} (hstep : step s = .next s.cleared) (k : Nat) (hq : ∀ i ∈ s.later.take k, i.quiet) :
    ∃ (inputs : Inputs s.params.W s.params.M) (later : List (Inputs s.params.W s.params.M)),
      Sys2Proof.core.run (k + 1) s =
        .next { s with
                inputs := inputs
                later := later
                pending := List.replicate s.params.LAT none
                rsp := none } := by
  induction k generalizing s with
  | zero => exact ⟨_, _, run_succ_of_step hstep 0⟩
  | succ k ih =>
    obtain ⟨hnow, hlater⟩ := next_inputs_of_take (Q := Inputs.quiet) (.inr rfl) hq
    rw [run_succ_of_step hstep]
    exact ih (step_of_quiet (s := s.cleared) hnow rfl) hlater

/-! ### The statements -/

/-- Settles O41: no slot is pending at `LAT = 0`, and none is presented. -/
theorem resetMeetsTheInvariant : Obligations.ResetMeetsTheInvariant :=
  ⟨⟨rfl, nofun, .inl slotLegal_of_none⟩, rfl, nofun⟩

/-- Settles O42: the step of a decoded request is `exec` and then the end of the edge. -/
theorem stepRunsTheDecodedInstruction : Obligations.StepRunsTheDecodedInstruction :=
  fun s _ hrst hv hi => ⟨fun _ => step_of_exec_next hrst hv hi, fun _ => step_of_exec_refused hrst hv hi,
    fun r hr => ⟨_, step_of_answers hrst hv hi hr, edgeGives_shift s (some r)⟩⟩

/-- Settles O43: an edge without a request ends in `s.shift none s.free`, in which the request fields do not occur. -/
theorem edgeWithoutARequestAcceptsNothing : Obligations.EdgeWithoutARequestAcceptsNothing :=
  fun s req hrst hv => ⟨s.shift none s.free, step_of_no_request hrst hv, edgeGives_shift s none,
    step_of_no_request (s := { s with inputs := { s.inputs with req := req } }) hrst hv⟩

/-- Settles O44: a reset edge as one record update. -/
theorem resetEdgeDiscardsEverythingPending : Obligations.ResetEdgeDiscardsEverythingPending :=
  fun s hrst => by rw [step_of_rst hrst, State.resetEdge_eq]

/-- Settles O45: the rules of `step` for a request that decodes, for a malformed one, and for none. -/
theorem malformedRequestsDisturbNoOtherResponse : Obligations.MalformedRequestsDisturbNoOtherResponse := by
  refine fun s => ⟨fun hrst hv hw => ?_, fun hrst hv hm => ?_, fun hquiet => ?_⟩
  · obtain ⟨i, r, hi, hr, hlegal⟩ := exists_answers_of_wellFormedRequest s hw
    exact ⟨_, r, step_of_answers hrst hv hi hr, hlegal, edgeGives_shift s (some r)⟩
  · exact ⟨_, step_of_malformed hrst hv hm, edgeGives_shift { s with free := s.free + 1 } _⟩
  · cases hrst : s.inputs.rst with
    | true => exact ⟨_, step_of_rst hrst, s.resetEdge_free⟩
    | false => exact ⟨_, step_of_no_request hrst (hquiet.resolve_left (by simp [hrst])), rfl⟩

/-- Settles O46: each of the four ends of an edge keeps the parameters. -/
theorem stepKeepsTheParameters : Obligations.StepKeepsTheParameters := by
  intro s t hstep
  rcases step_eq_next hstep with ⟨-, rfl⟩ | ⟨-, -, rfl⟩ | ⟨-, -, i, r, -, -, -, rfl⟩ | ⟨-, -, -, rfl⟩
  · exact s.resetEdge_params
  · exact State.finishEdge_params _
  · exact State.finishEdge_params _
  · exact State.finishEdge_params _

/-- Settles O47: a legal slot is allowed, and so is the free value of a malformed request. -/
theorem everyStepKeepsTheInvariant : Obligations.EveryStepKeepsTheInvariant :=
  fun s t hinv hstep => t.inv_iff.2 <| (s.inv_iff.1 hinv).step hstep (fun _ _ _ => .inl)
    fun _ _ hm => .inr ⟨s.inputs.req, s.free, hm, rfl⟩

/-- Settles O52: the edge accepts no malformed request, so it adds a legal slot. -/
theorem wellFormedInputsKeepEveryResponseLegal : Obligations.WellFormedInputsKeepEveryResponseLegal := by
  intro s t hlegal hcalm hstep
  refine t.allLegal_iff.2 ((s.allLegal_iff.1 hlegal).step hstep (fun _ _ _ h => h) fun hrst hv hm => ?_)
  rcases hcalm with hreset | ⟨-, hwf⟩
  · exact absurd hreset (by simp [hrst])
  · exact absurd (hwf hv) (by simp [hm])

/-- Settles O48: with an empty line the slot of an edge is presented by the edge itself. -/
theorem zeroLatencyAnswersOnTheSameEdge : Obligations.ZeroLatencyAnswersOnTheSameEdge := by
  intro s t hlat hinv hstep
  obtain ⟨hlen, -, -⟩ := hinv
  have hnil : s.pending = [] := List.length_eq_zero_iff.1 (hlen.trans hlat)
  have hrsp (x : Option (Response s.params.W s.params.M)) (f : Nat) : (s.shift x f).rspValid = x.isSome := by
    simp [State.rspValid, State.shift, hnil]
  have hunique {u : State} (hu : step s = .next u) : u = t := Host.Outcome.next.inj (hu.symm.trans hstep)
  refine ⟨fun hcalm => ?_, fun i r hrst hv hi hr => ?_⟩
  · cases hrst : s.inputs.rst with
    | true =>
      rw [← hunique (step_of_rst hrst), State.resetEdge_eq]
      simp [State.rspValid]
    | false =>
      obtain ⟨-, hwf⟩ := hcalm.resolve_left (by simp [hrst])
      cases hv : s.inputs.reqValid with
      | false =>
        rw [← hunique (step_of_no_request hrst hv), hrsp]
        rfl
      | true =>
        obtain ⟨i, r, hi, hr, -⟩ := exists_answers_of_wellFormedRequest s (hwf hv)
        rw [← hunique (step_of_answers hrst hv hi hr), hrsp]
        rfl
  · obtain rfl := hunique (step_of_answers hrst hv hi hr)
    rw [State.shift, hnil]
    rfl

/-- Settles O49: the slot of this edge stands behind `LAT` pending ones. -/
theorem responseComesExactlyLatEdgesLater : Obligations.ResponseComesExactlyLatEdgesLater :=
  fun _ hlen hlater hrst =>
    ⟨fun _ _ hv hi hr => presentedAfterLat_of_answers hlen hlater hrst hv hi hr,
      fun hv => presentedAfterLat_of_step hlen hlater (step_of_no_request hrst hv),
      fun hv hm => presentedAfterLat_of_step hlen hlater (step_of_malformed hrst hv hm)⟩

/-- Settles O50: the reset clears the line, and edges that accept nothing keep it clear. -/
theorem nothingPendingSurvivesAReset : Obligations.NothingPendingSurvivesAReset :=
  fun s k hrst hquiet => run_quiet ((step_of_rst hrst).trans (by rw [State.resetEdge_eq, State.cleared])) k hquiet

/-- Settles O51: a reset edge has a next state, and so has an edge that puts a slot behind the line. -/
theorem everyEdgeGivesANextState : Obligations.EveryEdgeGivesANextState := by
  intro s
  cases hrst : s.inputs.rst with
  | true => exact ⟨_, step_of_rst hrst⟩
  | false =>
    obtain ⟨x, f, hstep⟩ := exists_step_eq_shift hrst
    exact ⟨_, hstep⟩

/-- Settles O53: the answer is the same in all surroundings (`Answers.within`), and in each it is presented `LAT` edges
later. -/
theorem otherRequestsChangeNoResponse : Obligations.OtherRequestsChangeNoResponse := by
  intro s hrst hv hw
  obtain ⟨i, r, hi, hr, hlegal⟩ := exists_answers_of_wellFormedRequest s hw
  refine ⟨i, r, hi, hr, hlegal, fun later pending rsp free hlen hlater => ?_⟩
  have hr' : Answers i { s with later := later, pending := pending, rsp := rsp, free := free } r :=
    hr.within ⟨s.params.LAT, s.inputs, later, pending, rsp, free⟩
  exact presentedAfterLat_of_answers hlen hlater hrst hv hi hr'

end Sys2Proof.Machine
end
